-- ==== Sys2Proof/Word.lean ====
section
/-! DEFINITION. The word types of MBRPRE (spec/00_scope.md R11, R13, R60): bytes, 32-bit and 64-bit unsigned words.
All quantities are unsigned (R13); bit 0 is the least significant bit (R14). -/

namespace Sys2Proof

/-- One byte: the command byte, one `OUT[i]`, one byte of the device. -/
abbrev Byte := BitVec 8

/-- The width of `STATUS` (R26). -/
abbrev Word32 := BitVec 32

/-- The width of `IN_A`, `IN_B` and of an LBA (R11, R22). -/
abbrev Word64 := BitVec 64

end Sys2Proof
end

