-- ==== Sys2Proof/Syntax.lean ====
section
/-! DEFINITION. The commands of MBRPRE: one constructor per row of spec/opcode_table.json. A command has no operand
field: its operands are always the current values of `IN_A` and `IN_B` (spec/30_encoding.md R71). -/

namespace Sys2Proof

/-- The five commands of the opcode map (spec/30_encoding.md R73). -/
inductive Instr where
  /-- CHSENC, byte 0x01: packed CHS of the LBA in IN_A (spec/40_geometry_encoder.md R110). -/
  | chsenc
  /-- CHSLAST, byte 0x02: saturating last-CHS field of the block count in IN_A (spec/41_record_builder.md R150). -/
  | chslast
  /-- SCNT, byte 0x03: saturating sector-count field of the block count in IN_A (spec/41_record_builder.md R151). -/
  | scnt
  /-- BUILD, byte 0x04: the 16-byte partition record of sizes IN_A and IN_B (spec/41_record_builder.md R152). -/
  | build
  /-- AREA, byte 0x05: that record and the boot signature (spec/41_record_builder.md R153). -/
  | area
deriving DecidableEq, Repr

end Sys2Proof
end

