-- ==== Sys2Proof/Machine/State.lean ====
section
/-! DEFINITION. The state of MBRPRE and of the host that drives it, as plain data, and its value after reset.

The block's own state is `(IN_A, IN_B, OUT, STATUS)` (spec/10_state.md R21). The block takes no step of its own (R20): a
step is one action of the host, so the model holds beside it what the host is about to do (`pending`), what its reads
returned (`observed`, spec/70_reset_and_hazards.md R210), and the storage device only the host writes (`device`,
spec/20_memory.md R51, R55). -/

namespace Sys2Proof.Machine

/-- The causes of a fault (spec/60_exceptions.md R173). They are held as a code in `STATUS.CODE`; taking one is a NEXT
state (R172), not an end of the run. -/
inductive FaultCode where
  /-- The command byte is not in the opcode map. -/
  | illegalCmd
  /-- `IN_B` = 0 in BUILD or AREA. -/
  | bsZero
  /-- Block count 0 in BUILD, AREA or CHSLAST. -/
  | emptyDevice
  /-- `P_REJECT_NONMULTIPLE` holds and `IN_B` does not divide `IN_A`, in BUILD or AREA. -/
  | nonmultiple
deriving DecidableEq, Repr

/-- A host transaction (spec/00_scope.md R17; spec/10_state.md R30 to R34). Offsets and widths are plain numbers: an
access outside the register map is refused, never decoded to a neighbour (R33). -/
inductive Transaction where
  /-- `HostWrite(offset, width, data)`; an 8-bit write uses `data[7:0]` (R31). -/
  | write (offset width : Nat) (data : Word64)
  /-- `HostRead(offset, width)` (R32). -/
  | read (offset width : Nat)
  /-- `HostReset` (R34). -/
  | reset
deriving DecidableEq, Repr

/-- The bytes of a host's device write: given outright (spec/00_scope.md R15), or the slice `OUT[first..last]` of the
result buffer (the form of spec/20_memory.md R55). -/
inductive DevBytes where
  | literal (bytes : List Byte)
  | outSlice (first last : Fin 18)
deriving DecidableEq, Repr

/-- What the host does in one step: a transaction with the block, or a write of the storage device. `DevWrite` is "a host
action, not a block action" (R15). -/
inductive HostAction where
  | transaction (t : Transaction)
  /-- `DevWrite(offset, bytes)` (spec/20_memory.md R55); `offset` counts bytes from the device's first byte (R51). -/
  | devWrite (offset : Nat) (bytes : DevBytes)
deriving DecidableEq, Repr

/-- A value a read returned, at the width of the register read (spec/20_memory.md R60). -/
inductive ReadValue where
  /-- One `OUT[i]`. -/
  | byte (v : Byte)
  /-- `STATUS`. -/
  | status (v : Word32)
  /-- `IN_A` or `IN_B`. -/
  | operand (v : Word64)
deriving DecidableEq, Repr

/-- Bytes of the storage device the host has written: strictly rising offsets (`Memory.wf`). An unlisted offset holds no
known value (assumption log entry 6). -/
abbrev Memory := List Host.Cell

/-- The whole state. -/
structure State where
  /-- `IN_A`, 64 bits (R22, R23). -/
  inA : Word64
  /-- `IN_B`, 64 bits (R22, R24). -/
  inB : Word64
  /-- `OUT[0]` to `OUT[17]` (R25). -/
  out : Vector Byte 18
  /-- `STATUS`, 32 bits (R26). -/
  status : Word32
  /-- What the host has still to do, in the host program's order (R20, R35, R63; log entry 1). The model's own field. -/
  pending : List HostAction
  /-- The values the host's reads returned, oldest first (R210; log entry 2). The model's own field. -/
  observed : List ReadValue
  /-- The bytes of the storage device written so far (R51, R55; log entry 6). -/
  device : Memory
deriving DecidableEq, Repr

/-- Why the machine stops with a fault. No command stops the machine: a command's faults are taken, as R172 says. -/
inductive Fault where
  /-- Raised by `step` when the host has nothing left to do: "The block takes no step of its own" (R20), and "The run ends
  after the host's last statement" (R210). SAFE: no step exists, so nothing is claimed of one. -/
  | runEnded
deriving DecidableEq, Repr

/-- Why a step has no meaning. The four access reasons are R33's: "A refused access has no step". -/
inductive Refusal where
  /-- Raised by an arm of `exec` whose command has no meaning yet; no arm raises it now. SAFE: nothing is claimed. -/
  | notModelled (mnemonic : String)
  /-- Raised by a host access at an offset that holds no register, a misaligned one among them (R30, R33, R59). SAFE. -/
  | noRegister
  /-- Raised by a host access at a register's offset with a width other than the listed one (R30, R33). SAFE. -/
  | wrongWidth
  /-- Raised by a host read of `CMD` (R30, R33). SAFE. -/
  | notReadable
  /-- Raised by a host write of `STATUS` or `OUT[i]` (R30, R33). SAFE. -/
  | notWritable
deriving DecidableEq, Repr

/-- The state right after reset and after power-on: every register 0 (spec/10_state.md R37; 70_reset_and_hazards.md R201);
no host program loaded, nothing read, nothing written to the device. -/
def State.reset : State where
  inA := 0
  inB := 0
  out := Vector.replicate 18 0
  status := 0
  pending := []
  observed := []
  device := []

end Sys2Proof.Machine
end

