-- ==== Sys2Proof/Machine/Flags.lean ====
section
/-! DEFINITION. The `STATUS` register's fields: how they are read and written, and how the host sees the word
(spec/10_state.md R26 to R29). -/

namespace Sys2Proof.Machine

/-- The field `w[lo+len-1:lo]`. -/
def getField (w : Word32) (lo len : Nat) : BitVec len := w.extractLsb' lo len

/-- `w` with the field at `lo` replaced by `v`, every other bit kept. -/
def setField (w : Word32) (lo : Nat) {len : Nat} (v : BitVec len) : Word32 :=
  (w &&& ~~~((BitVec.allOnes len).setWidth 32 <<< lo)) ||| (v.setWidth 32 <<< lo)

/-- `STATUS.VALID`, bit 0. -/
def State.valid (s : State) : Bool := s.status.getLsbD 0

/-- `STATUS.ERR`, bit 1: the block is faulted (spec/60_exceptions.md R171). -/
def State.err (s : State) : Bool := s.status.getLsbD 1

/-- `STATUS.CODE`, bits 4:2. -/
def State.code (s : State) : BitVec 3 := getField s.status 2 3

/-- `STATUS.OUT_LEN`, bits 12:8. -/
def State.outLen (s : State) : BitVec 5 := getField s.status 8 5

/-- `STATUS.VALID <- v`. -/
def setValid (w : Word32) (v : Bool) : Word32 := setField w 0 (BitVec.ofBool v)

/-- `STATUS.ERR <- v`. -/
def setErr (w : Word32) (v : Bool) : Word32 := setField w 1 (BitVec.ofBool v)

/-- `STATUS.CODE <- v`. -/
def setCode (w : Word32) (v : BitVec 3) : Word32 := setField w 2 v

/-- `STATUS.OUT_LEN <- v`. -/
def setOutLen (w : Word32) (v : BitVec 5) : Word32 := setField w 8 v

/-- The bits of `STATUS` that are fields: 4:0 and 12:8. The reserved bits 7:5 and 31:13 "always read 0" (R26). -/
def statusFieldMask : Word32 := 0x00001F1F

/-- `STATUS` as the host reads it: the fields, and 0 in every reserved bit (R26, R30; log entry 14). -/
def State.statusRead (s : State) : Word32 := s.status &&& statusFieldMask

/-- The code of a fault, as `STATUS.CODE` holds it (spec/60_exceptions.md R173). -/
def FaultCode.code : FaultCode → BitVec 3
  | .illegalCmd => 1
  | .bsZero => 2
  | .emptyDevice => 3
  | .nonmultiple => 4

end Sys2Proof.Machine
end

