-- ==== Sys2Proof/Machine/Operands.lean ====
section
/-! DEFINITION. The operand forms: the register map a host access goes through (spec/10_state.md R30, R33), and the two
operand registers a command reads whole (spec/30_encoding.md R71). -/

namespace Sys2Proof.Machine

/-- The registers of the register map (R30). `CMD` is an address, not storage (R21). -/
inductive Register where
  | cmd
  | status
  | inA
  | inB
  | out (i : Fin 18)
deriving DecidableEq, Repr

/-- The register at an offset of the 64-byte register space; none where the map lists no register (R30). -/
def registerAt (offset : Nat) : Option Register :=
  if offset = 0x00 then some .cmd
  else if offset = 0x04 then some .status
  else if offset = 0x08 then some .inA
  else if offset = 0x10 then some .inB
  else if h : 0x20 ≤ offset ∧ offset - 0x20 < 18 then some (.out ⟨offset - 0x20, h.2⟩)
  else none

/-- The one admitted access width of a register, in bits (the "width" column of R30). -/
def Register.width : Register → Nat
  | .cmd => 8
  | .status => 32
  | .inA => 64
  | .inB => 64
  | .out _ => 8

/-- May the host read it (the "host read" column of R30)? -/
def Register.readable : Register → Bool
  | .cmd => false
  | .status => true
  | .inA => true
  | .inB => true
  | .out _ => true

/-- May the host write it (the "host write" column of R30)? -/
def Register.writable : Register → Bool
  | .cmd => true
  | .status => false
  | .inA => true
  | .inB => true
  | .out _ => false

/-- The register at an offset, if the access has its listed width; else the reason for refusal (R33). -/
def locate (offset width : Nat) : Except Refusal Register :=
  match registerAt offset with
  | none => .error .noRegister
  | some r => if width = r.width then .ok r else .error .wrongWidth

/-- The register an admitted read names; the reason for refusal where R30 does not admit it (R33). -/
def admitRead (offset width : Nat) : Except Refusal Register :=
  match locate offset width with
  | .error e => .error e
  | .ok r => if r.readable then .ok r else .error .notReadable

/-- The register an admitted write names; the reason for refusal where R30 does not admit it (R33). -/
def admitWrite (offset width : Nat) : Except Refusal Register :=
  match locate offset width with
  | .error e => .error e
  | .ok r => if r.writable then .ok r else .error .notWritable

/-- The first operand of a command, read whole at issue (R22, R23, R71). -/
def State.operandA (s : State) : Word64 := s.inA

/-- The second operand, which BUILD and AREA use (R24, R71). -/
def State.operandB (s : State) : Word64 := s.inB

/-- The value a read of a register returns (R32). `CMD` is an address, not storage: nothing of it is kept (R21), and a
read of it is refused (R33). -/
def State.readRegister (s : State) : Register → Except Refusal ReadValue
  | .cmd => .error .notReadable
  | .status => .ok (.status s.statusRead)
  | .inA => .ok (.operand s.inA)
  | .inB => .ok (.operand s.inB)
  | .out i => .ok (.byte s.out[i])

end Sys2Proof.Machine
end

