-- ==== Sys2Proof/WellFormed.lean ====
section
/-! DEFINITION. Well-formedness of what the host gives the block: commands, single actions and whole host programs. -/

namespace Sys2Proof

/-- A command carries no operand, immediate or mode field (spec/30_encoding.md R71), so there is nothing to check: each of
the five is well-formed. -/
def Instr.wellFormed : Instr → Bool
  | .chsenc => true
  | .chslast => true
  | .scnt => true
  | .build => true
  | .area => true

namespace Machine

/-- Why the register map refuses a transaction, if it does (spec/10_state.md R30, R33; 20_memory.md R59). -/
def Transaction.refusal : Transaction → Option Refusal
  | .write offset width _ =>
    match admitWrite offset width with
    | .ok _ => none
    | .error e => some e
  | .read offset width =>
    match admitRead offset width with
    | .ok _ => none
    | .error e => some e
  | .reset => none

/-- Is the transaction one R30 admits? -/
def Transaction.admitted (t : Transaction) : Bool := t.refusal.isNone

/-- Why a host action is refused. A device write is the host's own and never refused here (spec/20_memory.md R55, R56). -/
def HostAction.refusal : HostAction → Option Refusal
  | .transaction t => t.refusal
  | .devWrite _ _ => none

/-- Is the host action one a well-formed program may hold? -/
def HostAction.admitted (a : HostAction) : Bool := a.refusal.isNone

/-- The reason a host program is ill-formed: that of its first refused access (R33); none if it is well-formed. -/
def programRefusal : List HostAction → Option Refusal
  | [] => none
  | a :: rest =>
    match a.refusal with
    | some e => some e
    | none => programRefusal rest

end Machine

end Sys2Proof
end

