-- ==== Sys2Proof/Decode.lean ====
section
/-! DEFINITION. The command byte: decoder, encoder, and the decoder on the opcode table's numbering
(spec/30_encoding.md R70, R73 to R77). -/

namespace Sys2Proof

/-- Why a byte is no command (spec/30_encoding.md R75). Both reasons raise `ILLEGAL_CMD` when executed. -/
inductive DecodeError where
  /-- `RSV`, bits 7:4, is not 0000: bytes 0x10 to 0xFF. -/
  | reservedNotZero
  /-- `RSV` is 0000 and `OPC` is 0x0 or 0x6 to 0xF: bytes 0x00 and 0x06 to 0x0F. -/
  | unassignedOpc
deriving DecidableEq, Repr

/-- `OPC`, bits 3:0 of the command byte (R70). -/
def opcField (c : Byte) : BitVec 4 := c.extractLsb' 0 4

/-- `RSV`, bits 7:4 of the command byte (R70). -/
def rsvField (c : Byte) : BitVec 4 := c.extractLsb' 4 4

/-- The command of an `OPC` value (the opcode map, R73; the `case` of R74). -/
def commandOfOpc (opc : Nat) : Except DecodeError Instr :=
  match opc with
  | 1 => .ok .chsenc
  | 2 => .ok .chslast
  | 3 => .ok .scnt
  | 4 => .ok .build
  | 5 => .ok .area
  | _ => .error .unassignedOpc

/-- Decode a command byte: total over all 256 bytes (R74, R77). -/
def decode (c : Byte) : Except DecodeError Instr :=
  if rsvField c ≠ 0 then .error .reservedNotZero else commandOfOpc (opcField c).toNat

/-- The command byte of a command (the "byte" column of R73). A command is exactly one byte long (R70). -/
def encode : Instr → Byte
  | .chsenc => 0x01
  | .chslast => 0x02
  | .scnt => 0x03
  | .build => 0x04
  | .area => 0x05

/-- The decoder on the numbering of spec/opcode_table.json: a command is one byte, `match` and `mask` over 8 bits. -/
def decodeTableWord (nbits w : Nat) : Option Instr :=
  if nbits = 8 ∧ w < 256 then
    match decode (BitVec.ofNat 8 w) with
    | .ok i => some i
    | .error _ => none
  else none

end Sys2Proof
end

