-- ==== Sys2Proof/Config.lean ====
section
/-! DEFINITION. What an implementation of MBRPRE fixes: the one open parameter of the spec. -/

namespace Sys2Proof

/-- `P_REJECT_NONMULTIPLE : Bool`, the block's one open parameter (spec/00_scope.md R12; 90_conflicts.md C8;
92_eei_decisions.md D13). When true, BUILD and AREA fault if IN_A is no exact multiple of IN_B; when false they truncate.
It is configuration, not state (R21). It has no body: nothing can be proved that depends on its value, so a claim about
`exec` holds for both readings; the meanings themselves take it as an argument (`execBuildWith`, `execAreaWith`).
Assumption log entry 3. -/
opaque Config.rejectNonmultiple : Bool

end Sys2Proof
end

