-- ==== Sys2Proof/Machine/Constants.lean ====
section
/-! DEFINITION. The fixed constants of the source (spec/00_scope.md R8 to R10). None of them is a parameter or state. -/

namespace Sys2Proof.Machine

/-- `HPC`, "HeadsPerCylinder" (R8). -/
abbrev headsPerCylinder : Nat := 255

/-- `SPT`, "SectorsPerTrack" (R8). -/
abbrev sectorsPerTrack : Nat := 63

/-- `CYLS`, the cylinder modulus (R8). -/
abbrev cylinders : Nat := 1024

/-- `CHS_CEIL`, the threshold of the last-CHS saturation: 16450559 (R9; 90_conflicts.md C5: never re-derived). -/
abbrev chsCeil : Nat := 1024 * 255 * 63 - 1

/-- `CNT_CEIL`, the threshold of the sector-count saturation: 4294967295 (R9). -/
abbrev cntCeil : Nat := 2 ^ 32 - 1

/-- `STATUS_BYTE`, "non-bootable" (R10). -/
abbrev statusByte : Byte := 0x00

/-- `PTYPE` (R10). -/
abbrev partitionType : Byte := 0x0B

/-- `CHS_SAT`, the bytes of C/H/S = 1023/254/63 (R10; 90_conflicts.md C1). -/
abbrev chsSaturated : List Byte := [0xFE, 0xFF, 0xFF]

/-- `CNT_SAT` (R10). -/
abbrev cntSaturated : List Byte := [0xFF, 0xFF, 0xFF, 0xFF]

/-- `SIG`, the boot signature (R10). -/
abbrev bootSignature : List Byte := [0x55, 0xAA]

/-- The zero-based device offset of the record (R10; spec/20_memory.md R55; 90_conflicts.md C4). -/
abbrev recordOffset : Nat := 446

/-- The zero-based device offset of the signature (R10; R55). -/
abbrev signatureOffset : Nat := 510

end Sys2Proof.Machine
end

