-- ==== Sys2Proof/Machine/Device.lean ====
section
/-! DEFINITION. The bytes of the storage device the host writes (spec/20_memory.md R51, R55 to R58). The block never
addresses the device (R50, R51): only the host's `DevWrite` changes these bytes, and no command reads them back. -/

namespace Sys2Proof.Machine

/-- The canonical form: offsets strictly rising. An unlisted offset has no known value, so no entry is redundant. -/
abbrev Memory.wf (m : Memory) : Prop := m.Pairwise (fun c d => c.1 < d.1)

/-- The byte known to stand at a device offset; none where nothing has been written (log entry 6). -/
def Memory.read : Memory → Nat → Option Byte
  | [], _ => none
  | c :: rest, a => if c.1 = a then some c.2 else Memory.read rest a

/-- The host's duty "zero-filled first block precondition", for the bytes 0 to 511 the spec's model needs (R51, R56). -/
def Memory.firstBlockZero (m : Memory) : Prop := ∀ a, a < 512 → Memory.read m a = some 0

/-- The same as a check. -/
def Memory.hasZeroFirstBlock (m : Memory) : Bool := (List.range 512).all fun a => Memory.read m a == some 0

/-- Write one byte, keeping the offsets rising. -/
def Memory.write : Memory → Nat → Byte → Memory
  | [], a, v => [(a, v)]
  | c :: rest, a, v =>
    if a < c.1 then (a, v) :: c :: rest
    else if a = c.1 then (a, v) :: rest
    else c :: Memory.write rest a v

/-- Write a byte sequence at consecutive rising offsets: "`OUT[i]` lands at a higher device offset than `OUT[j]` whenever
i > j within one `DevWrite`" (R52). -/
def Memory.writeBytes : Memory → Nat → List Byte → Memory
  | m, _, [] => m
  | m, a, v :: vs => Memory.writeBytes (Memory.write m a v) (a + 1) vs

end Sys2Proof.Machine
end

