-- ==== Sys2Proof/Machine/Ops.lean ====
section
/-! DEFINITION. The named operations on the state: delivering a result, taking a fault, issuing a command, the reset, and
the host's writes of registers and of the device. -/

namespace Sys2Proof.Machine

/-- The 18 bytes of `OUT` for a result: the result, then 0x00 to the end (spec/10_state.md R25). -/
def outOf (r : List Byte) : Vector Byte 18 := Vector.ofFn fun i => r.getD i 0

/-- A command completes with result `r`: all 18 bytes of `OUT` are written, `OUT_LEN` is the result's length and `VALID`
is 1 (R25, R27, R29). `ERR` and `CODE` are left as they are. -/
def State.complete (s : State) (r : List Byte) : State :=
  { s with
    out := outOf r
    status := setValid (setOutLen s.status (BitVec.ofNat 5 r.length)) true }

/-- `raise Fault(code)`, the taking of a fault (spec/60_exceptions.md R172, R177): `ERR` is set, `CODE` saves the cause,
`VALID` and `OUT_LEN` are cleared, and nothing else changes. There is no handler to go to (R177) and no return from one
(R178). -/
def State.raise (s : State) (c : FaultCode) : State :=
  { s with status := setOutLen (setValid (setCode (setErr s.status true) c.code) false) 0 }

/-- The end of a command: its result is delivered, or its fault taken. -/
def State.conclude (s : State) : Except FaultCode (List Byte) → State
  | .ok r => s.complete r
  | .error c => s.raise c

/-- Issue a command whose outcome on the present operands is `r`: ignored while the block is faulted (R176), else
concluded. Every command, and an illegal byte, goes through this one operation; it always answers a next state. -/
def issue (s : State) (r : Except FaultCode (List Byte)) : Host.Outcome State Fault Refusal :=
  .next (if s.err then s else s.conclude r)

/-- `HostReset`: every register of the block at its reset value, faulted or not (spec/10_state.md R34, R37;
70_reset_and_hazards.md R200). It is the only return from the faulted state (60_exceptions.md R178). What the host has
still to do, what it has read and the device are not the block's and stay. -/
def State.hostReset (s : State) : State :=
  { s with
    inA := State.reset.inA
    inB := State.reset.inB
    out := State.reset.out
    status := State.reset.status }

/-- `IN_A <- v` (R31). -/
def State.setInA (s : State) (v : Word64) : State := { s with inA := v }

/-- `IN_B <- v` (R31). -/
def State.setInB (s : State) (v : Word64) : State := { s with inB := v }

/-- What the host has still to do, replaced: the front taken off by a step, or a host program loaded (log entry 1). -/
def State.setPending (s : State) (p : List HostAction) : State := { s with pending := p }

/-- The host takes note of a value read (spec/70_reset_and_hazards.md R210). -/
def State.observe (s : State) (v : ReadValue) : State := { s with observed := s.observed ++ [v] }

/-- The bytes a device write carries; `OUT[first..last]` is read when the write is made. -/
def State.devBytes (s : State) : DevBytes → List Byte
  | .literal bytes => bytes
  | .outSlice first last => (s.out.toList.take (last.val + 1)).drop first.val

/-- `DevWrite(offset, bytes)` (spec/20_memory.md R55). The offsets are the device's own, whatever the block size (R58), and
the write is made whether or not the block is faulted: when to write is the host's duty (R56; log entry 7). -/
def State.devWrite (s : State) (offset : Nat) (b : DevBytes) : State :=
  { s with device := Memory.writeBytes s.device offset (s.devBytes b) }

/-- The host's placement of an AREA result, the two device writes of R55. -/
def State.placeArea (s : State) : State :=
  (s.devWrite recordOffset (.outSlice 0 15)).devWrite signatureOffset (.outSlice 16 17)

/-- The host's placement of a BUILD result: the record alone (R55: the signature is "AREA only"). -/
def State.placeRecord (s : State) : State := s.devWrite recordOffset (.outSlice 0 15)

end Sys2Proof.Machine
end

