-- ==== Sys2Proof/Machine/Geometry.lean ====
section
/-! DEFINITION. The Geometry Encoder (spec/40_geometry_encoder.md): the pure function `Encode` and the command CHSENC. -/

namespace Sys2Proof.Machine

/-- A CHS tuple (spec/00_scope.md R19) at the widths of its packed fields: cylinder 10 bits, head 8, sector 6 (R102). -/
structure Chs where
  cyl : BitVec 10
  head : BitVec 8
  sec : BitVec 6
deriving DecidableEq, Repr

/-- The cylinder of an LBA, computed exactly (R102). -/
def cylOf (lba : Nat) : Nat := (lba / (headsPerCylinder * sectorsPerTrack)) % cylinders

/-- The head of an LBA, computed exactly (R102). -/
def headOf (lba : Nat) : Nat := ((lba / sectorsPerTrack) % headsPerCylinder) % 256

/-- The sector of an LBA, computed exactly; 1-based (R102). -/
def secOf (lba : Nat) : Nat := (lba % sectorsPerTrack + 1) % 64

/-- The CHS tuple of an LBA, total over every 64-bit LBA (R101, R102). -/
def chsOf (lba : Word64) : Chs where
  cyl := BitVec.ofNat 10 (cylOf lba.toNat)
  head := BitVec.ofNat 8 (headOf lba.toNat)
  sec := BitVec.ofNat 6 (secOf lba.toNat)

/-- The three packed bytes of a CHS tuple: head, then `cyl[9:8] ++ sec[5:0]`, then `cyl[7:0]` (R104). -/
def packChs (t : Chs) : List Byte :=
  [t.head, (t.cyl.extractLsb' 8 2 ++ t.sec : BitVec (2 + 6)), t.cyl.extractLsb' 0 8]

/-- `Encode(lba)`: 3 bytes (R105). -/
def encodeChs (lba : Word64) : List Byte := packChs (chsOf lba)

/-- `DecodeCHS` of three packed bytes, "defined for test oracles only" (R106): no command computes it, and statements use
it to say what the packed bytes hold. -/
def decodeChs (b0 b1 b2 : Byte) : Chs where
  cyl := (b1.extractLsb' 6 2 ++ b2 : BitVec (2 + 8))
  head := b0
  sec := b1.extractLsb' 0 6

/-- What CHSENC computes from IN_A: never a fault (R101, R110, R174). -/
def chsencResult (a : Word64) : Except FaultCode (List Byte) := .ok (encodeChs a)

/-- CHSENC: packed CHS of the LBA in IN_A (R110). -/
def execChsenc (s : State) : Host.Outcome State Fault Refusal := issue s (chsencResult s.operandA)

end Sys2Proof.Machine
end

