-- ==== Sys2Proof/Machine/RecordBuilder.lean ====
section
/-! DEFINITION. The Partition Record Builder (spec/41_record_builder.md): the pure functions and the commands CHSLAST, SCNT,
BUILD and AREA. -/

namespace Sys2Proof.Machine

/-- `MaxLBA(total, bs) = total div bs`, a count of blocks (R131). Never evaluated with bs = 0: `buildCheck` faults first. -/
def maxLba (total bs : Word64) : Word64 := total / bs

/-- `LastCHS(n)` for a block count n ≥ 1 (R132): saturates at `CHS_CEIL`, inclusive. Never evaluated with n = 0. -/
def lastChs (n : Word64) : List Byte :=
  if chsCeil ≤ n.toNat then chsSaturated else encodeChs (n - 1)

/-- `LE32(v)`: the four bytes of v, least significant first (R134). -/
def le32 (v : Word32) : List Byte :=
  [v.extractLsb' 0 8, v.extractLsb' 8 8, v.extractLsb' 16 8, v.extractLsb' 24 8]

/-- `SectorCount(n)` (R135): saturates at `CNT_CEIL`, inclusive. -/
def sectorCount (n : Word64) : List Byte :=
  if cntCeil ≤ n.toNat then cntSaturated else le32 (n.extractLsb' 0 32)

/-- The 16-byte record of a block count n ≥ 1, its six fields in order (R136, R137). The two saturations are independent
(R139). -/
def recordOf (n : Word64) : List Byte :=
  [statusByte] ++ encodeChs 0 ++ [partitionType] ++ lastChs n ++ le32 0 ++ sectorCount n

/-- `Record(total, bs)`, 16 bytes (R138). -/
def record (total bs : Word64) : List Byte := recordOf (maxLba total bs)

/-- `Area(total, bs)`, 18 bytes (R140). -/
def area (total bs : Word64) : List Byte := record total bs ++ bootSignature

/-- `BuildCheck(total, bs)`, in the order of R141 (and R175): the fault it raises, if any. `reject` is
`P_REJECT_NONMULTIPLE` (R12). -/
def buildCheck (reject : Bool) (total bs : Word64) : Option FaultCode :=
  if bs = 0 then some .bsZero
  else if total.toNat / bs.toNat = 0 then some .emptyDevice
  else if total.toNat % bs.toNat ≠ 0 ∧ reject = true then some .nonmultiple
  else none

/-- A result that is computed only if the precondition check raises nothing (R141, R152, R153). -/
def checked (reject : Bool) (total bs : Word64) (r : List Byte) : Except FaultCode (List Byte) :=
  match buildCheck reject total bs with
  | some c => .error c
  | none => .ok r

/-- What CHSLAST computes from IN_A: EMPTY_DEVICE for a count of 0 (R150). -/
def chslastResult (a : Word64) : Except FaultCode (List Byte) :=
  if a = 0 then .error .emptyDevice else .ok (lastChs a)

/-- What SCNT computes from IN_A: never a fault, a count of 0 included (R151, R174). -/
def scntResult (a : Word64) : Except FaultCode (List Byte) := .ok (sectorCount a)

/-- What BUILD computes from IN_A and IN_B (R152). -/
def buildResult (reject : Bool) (a b : Word64) : Except FaultCode (List Byte) := checked reject a b (record a b)

/-- What AREA computes from IN_A and IN_B (R153). -/
def areaResult (reject : Bool) (a b : Word64) : Except FaultCode (List Byte) := checked reject a b (area a b)

/-- CHSLAST: last-CHS field with saturation (R150). -/
def execChslast (s : State) : Host.Outcome State Fault Refusal := issue s (chslastResult s.operandA)

/-- SCNT: sector-count field with saturation (R151). -/
def execScnt (s : State) : Host.Outcome State Fault Refusal := issue s (scntResult s.operandA)

/-- BUILD with the open parameter as an argument (R12, R152). -/
def execBuildWith (reject : Bool) (s : State) : Host.Outcome State Fault Refusal :=
  issue s (buildResult reject s.operandA s.operandB)

/-- AREA with the open parameter as an argument (R12, R153). -/
def execAreaWith (reject : Bool) (s : State) : Host.Outcome State Fault Refusal :=
  issue s (areaResult reject s.operandA s.operandB)

/-- BUILD: the 16-byte partition record (R152), at the implementation's `P_REJECT_NONMULTIPLE`. -/
def execBuild (s : State) : Host.Outcome State Fault Refusal := execBuildWith Config.rejectNonmultiple s

/-- AREA: the record followed by the boot signature (R153), at the implementation's `P_REJECT_NONMULTIPLE`. -/
def execArea (s : State) : Host.Outcome State Fault Refusal := execAreaWith Config.rejectNonmultiple s

end Sys2Proof.Machine
end

