-- ==== Sys2Proof/Machine/Dispatch.lean ====
section
/-! DEFINITION. One arm per command: the `case` of `Execute` (spec/30_encoding.md R74). -/

namespace Sys2Proof.Machine

def exec (i : Instr) (s : State) : Host.Outcome State Fault Refusal :=
  match i with
  | .chsenc => Sys2Proof.Machine.execChsenc s
  | .chslast => Sys2Proof.Machine.execChslast s
  | .scnt => Sys2Proof.Machine.execScnt s
  | .build => Sys2Proof.Machine.execBuild s
  | .area => Sys2Proof.Machine.execArea s

end Sys2Proof.Machine
end

