-- ==== Sys2Proof/Machine/Transactions.lean ====
section
/-! DEFINITION. The host's transactions and its other action, the device write (spec/10_state.md R30 to R34; 20_memory.md
R55, R61, R62). Each is one indivisible step. -/

namespace Sys2Proof.Machine

/-- An illegal command byte: `Fault(ILLEGAL_CMD)` outside the faulted state (spec/30_encoding.md R74, R75). -/
def executeIllegal (s : State) : Host.Outcome State Fault Refusal := issue s (.error .illegalCmd)

/-- `Execute(c)` (R74). R74 tests `STATUS.ERR` before it looks at the byte; here each command, and the illegal byte, tests
it in `issue`, so that a faulted block ignores every byte alike (60_exceptions.md R176; log entry 5). -/
def execute (c : Byte) (s : State) : Host.Outcome State Fault Refusal :=
  match decode c with
  | .ok i => exec i s
  | .error _ => executeIllegal s

/-- An admitted write (R31). `STATUS` and `OUT` take no write (R25, R26, R33). -/
def writeRegister (r : Register) (data : Word64) (s : State) : Host.Outcome State Fault Refusal :=
  match r with
  | .cmd => execute (data.extractLsb' 0 8) s
  | .inA => .next (s.setInA data)
  | .inB => .next (s.setInB data)
  | .status => .refused .notWritable
  | .out _ => .refused .notWritable

/-- `HostWrite(offset, width, data)` (R31, R33). -/
def hostWrite (offset width : Nat) (data : Word64) (s : State) : Host.Outcome State Fault Refusal :=
  match admitWrite offset width with
  | .ok r => writeRegister r data s
  | .error e => .refused e

/-- `HostRead(offset, width)` (R32, R33): the value goes to the host; the block does not change. -/
def hostRead (offset width : Nat) (s : State) : Host.Outcome State Fault Refusal :=
  match admitRead offset width with
  | .error e => .refused e
  | .ok r =>
    match s.readRegister r with
    | .ok v => .next (s.observe v)
    | .error e => .refused e

/-- One transaction (spec/00_scope.md R17). -/
def transact (t : Transaction) (s : State) : Host.Outcome State Fault Refusal :=
  match t with
  | .write offset width data => hostWrite offset width data s
  | .read offset width => hostRead offset width s
  | .reset => .next s.hostReset

/-- One action of the host. -/
def perform (a : HostAction) (s : State) : Host.Outcome State Fault Refusal :=
  match a with
  | .transaction t => transact t s
  | .devWrite offset b => .next (s.devWrite offset b)

/-- The host's next action, in its program's order (spec/20_memory.md R63). With nothing left to do there is no step:
the block takes none of its own (10_state.md R20; log entry 1). -/
def hostTurn (s : State) : Host.Outcome State Fault Refusal :=
  match s.pending with
  | [] => .fault .runEnded
  | a :: rest => perform a (s.setPending rest)

/-- The transaction that issues a command byte: `HostWrite(0x00, 8, c)` (spec/30_encoding.md R81). -/
def commandWrite (c : Byte) : HostAction := .transaction (.write 0x00 8 (c.setWidth 64))

end Sys2Proof.Machine
end

