-- ==== Sys2Proof/Machine/Step.lean ====
section
/-! DEFINITION. One step of the model: one action of the host (spec/10_state.md R20: "a model has one step relation, over
host transactions"), and how the host places a command where the next step takes it. -/

namespace Sys2Proof.Machine

/-- One step. -/
def step (s : State) : Host.Outcome State Fault Refusal := hostTurn s

/-- `s` with a write of a command byte as the host's very next action. The block fetches nothing (R35, R66): a command comes
only from the host, so this stands for the host's issuing it. What the host had to do before stays behind it (log
entry 1). A command is 8 bits long (R70): `w` fills the one byte, whatever `nbits` says of it. -/
def State.withFetchWord (s : State) (nbits w : Nat) : State :=
  s.setPending (commandWrite (BitVec.ofNat 8 (w % 2 ^ nbits)) :: s.pending)

end Sys2Proof.Machine
end

