-- ==== Sys2Proof/Machine/Program.lean ====
section
/-! DEFINITION. Host programs: their statements (spec/30_encoding.md R80), the transaction each stands for and its written
form (R81), the pseudo-statements (R82), the text of a program, and a run and its observation (spec/10_state.md R33;
70_reset_and_hazards.md R204, R210). -/

namespace Sys2Proof.Machine

/-- `reg64` of the grammar (R80). -/
inductive Reg64 where
  | inA
  | inB
deriving DecidableEq, Repr

/-- `stmt` of the grammar (R80). -/
inductive Stmt where
  | wr64 (r : Reg64) (v : Word64)
  | rd64 (r : Reg64)
  | rd32Status
  | rd8Out (i : Fin 18)
  /-- `CMD mnemonic`. -/
  | cmd (i : Instr)
  /-- `CMD imm8`: the raw byte, "which may be illegal". -/
  | cmdByte (c : Byte)
  | reset
deriving DecidableEq, Repr

/-- A line of a program's text: a statement, or a pseudo-statement (R82). -/
inductive SourceStmt where
  | plain (s : Stmt)
  /-- `RUN m, a`. -/
  | run (m : Instr) (a : Word64)
  /-- `RUN m, a, b`. -/
  | runPair (m : Instr) (a b : Word64)
  /-- `RDOUT n`. -/
  | rdOut (n : Nat)
deriving DecidableEq, Repr

/-- The offset of an operand register (R30). -/
def Reg64.offset : Reg64 → Nat
  | .inA => 0x08
  | .inB => 0x10

/-- The transaction a statement stands for (R81). -/
def Stmt.transaction : Stmt → Transaction
  | .wr64 r v => .write r.offset 64 v
  | .rd64 r => .read r.offset 64
  | .rd32Status => .read 0x04 32
  | .rd8Out i => .read (0x20 + i.val) 8
  | .cmd i => .write 0x00 8 ((encode i).setWidth 64)
  | .cmdByte c => .write 0x00 8 (c.setWidth 64)
  | .reset => .reset

/-- Does a command take a second operand, IN_B (R24, R73)? -/
def takesPair : Instr → Bool
  | .chsenc => false
  | .chslast => false
  | .scnt => false
  | .build => true
  | .area => true

/-- The statements a line stands for (R82); none where R82 gives the form no expansion (a one-operand RUN of BUILD or AREA, a
two-operand RUN of the others, RDOUT of 0 or of more than 18). -/
def SourceStmt.expand : SourceStmt → Option (List Stmt)
  | .plain s => some [s]
  | .run m a => if takesPair m then none else some [.wr64 .inA a, .cmd m]
  | .runPair m a b => if takesPair m then some [.wr64 .inA a, .wr64 .inB b, .cmd m] else none
  | .rdOut n => if 1 ≤ n ∧ n ≤ 18 then some ((List.finRange 18).take n |>.map .rd8Out) else none

/-- The statements of a list of lines; none if a line has none. -/
def expandAll : List SourceStmt → Option (List Stmt)
  | [] => some []
  | l :: ls =>
    match l.expand, expandAll ls with
    | some a, some b => some (a ++ b)
    | _, _ => none

/-- The host's actions for a list of statements, in order. -/
def actionsOf (p : List Stmt) : List HostAction := p.map fun s => .transaction s.transaction

/-! ### The written form of a transaction (R81) -/

/-- A hexadecimal digit, in capitals as the spec's own examples write it (95_test_vectors.md; log entry 12). -/
def hexDigit (d : Fin 16) : Char := "0123456789ABCDEF".toList.getD d.val '0'

/-- `n` in exactly `count` hexadecimal digits, most significant first. -/
def hexDigits : Nat → Nat → List Char
  | 0, _ => []
  | count + 1, n => hexDigits count (n / 16) ++ [hexDigit ⟨n % 16, Nat.mod_lt n (by decide)⟩]

/-- A transaction written `dir offset width data`: the width in decimal, offset and data in hex (R81). -/
def Transaction.render : Transaction → List Char
  | .write offset width data =>
    ['W', ' '] ++ hexDigits 2 offset ++ [' '] ++ Nat.toDigits 10 width ++ [' '] ++ hexDigits (width / 4) data.toNat
  | .read offset width => ['R', ' '] ++ hexDigits 2 offset ++ [' '] ++ Nat.toDigits 10 width
  | .reset => ['X']

/-- The value of a decimal digit. -/
def decDigitValue (c : Char) : Option Nat :=
  if 48 ≤ c.toNat ∧ c.toNat ≤ 57 then some (c.toNat - 48) else none

/-- The value of a hexadecimal digit, in either case. -/
def hexDigitValue (c : Char) : Option Nat :=
  if 48 ≤ c.toNat ∧ c.toNat ≤ 57 then some (c.toNat - 48)
  else if 65 ≤ c.toNat ∧ c.toNat ≤ 70 then some (c.toNat - 55)
  else if 97 ≤ c.toNat ∧ c.toNat ≤ 102 then some (c.toNat - 87)
  else none

/-- The number a digit string adds to `acc`, most significant digit first; none if a character is no digit. -/
def readDigits (base : Nat) (value : Char → Option Nat) : Nat → List Char → Option Nat
  | acc, [] => some acc
  | acc, c :: cs =>
    match value c with
    | some d => readDigits base value (acc * base + d) cs
    | none => none

/-- A decimal number of at least one digit. -/
def readDec (cs : List Char) : Option Nat := if cs = [] then none else readDigits 10 decDigitValue 0 cs

/-- A hexadecimal number of at least one digit, without `0x`. -/
def readHex (cs : List Char) : Option Nat := if cs = [] then none else readDigits 16 hexDigitValue 0 cs

/-- The words of a line that single spaces separate; `w` is the word read so far. -/
def splitSpaces : List Char → List Char → List (List Char)
  | [], w => [w]
  | c :: cs, w => if c = ' ' then w :: splitSpaces cs [] else splitSpaces cs (w ++ [c])

/-- The transaction whose words these are, read without regard to the number of digits. -/
def transactionOfWords : List (List Char) → Option Transaction
  | [k] => if k = ['X'] then some .reset else none
  | [k, o, w] =>
    if k = ['R'] then
      match readHex o, readDec w with
      | some offset, some width => some (.read offset width)
      | _, _ => none
    else none
  | [k, o, w, d] =>
    if k = ['W'] then
      match readHex o, readDec w, readHex d with
      | some offset, some width, some data => some (.write offset width (BitVec.ofNat 64 data))
      | _, _, _ => none
    else none
  | _ => none

/-- The transaction a line of R81's form stands for; none for any line that is not the written form of one. -/
def Transaction.parse (line : List Char) : Option Transaction :=
  match transactionOfWords (splitSpaces line []) with
  | some t => if t.render = line then some t else none
  | none => none

/-! ### The text of a host program (R80, R82; the lexical conventions are log entry 12) -/

/-- Blank characters between tokens. -/
def isBlank (c : Char) : Bool := c == ' ' || c == '\t' || c == '\r'

/-- Characters that are tokens of their own: the grammar's comma, and the brackets of `OUT[i]`. -/
def isMark (c : Char) : Bool := c == ',' || c == '[' || c == ']'

/-- The word read so far, if any. -/
def flushWord (w : List Char) : List (List Char) := if w = [] then [] else [w]

/-- The tokens of one line; `;` starts a comment that runs to its end (R80). -/
def tokens : List Char → List Char → List (List Char)
  | [], w => flushWord w
  | c :: cs, w =>
    if c = ';' then flushWord w
    else if isBlank c then flushWord w ++ tokens cs []
    else if isMark c then flushWord w ++ [c] :: tokens cs []
    else tokens cs (w ++ [c])

/-- The lines of a text. -/
def linesOf : List Char → List Char → List (List Char)
  | [], l => [l]
  | c :: cs, l => if c = '\n' then l :: linesOf cs [] else linesOf cs (l ++ [c])

/-- A number in either form of `imm`, "decimal or 0x-hex" (R80). -/
def readNumber : List Char → Option Nat
  | '0' :: 'x' :: ds => readHex ds
  | ds => readDec ds

/-- `imm`: a number below a bound (R80). -/
def readImm (bound : Nat) (cs : List Char) : Option Nat :=
  match readNumber cs with
  | some n => if n < bound then some n else none
  | none => none

/-- `imm`, 0 to 2^64 - 1. -/
def readImm64 (cs : List Char) : Option Word64 := (readImm (2 ^ 64) cs).map (BitVec.ofNat 64)

/-- `reg64`. -/
def readReg64 (cs : List Char) : Option Reg64 :=
  if cs = "IN_A".toList then some .inA else if cs = "IN_B".toList then some .inB else none

/-- `mnemonic` (R80). -/
def readMnemonic (cs : List Char) : Option Instr :=
  if cs = "CHSENC".toList then some .chsenc
  else if cs = "CHSLAST".toList then some .chslast
  else if cs = "SCNT".toList then some .scnt
  else if cs = "BUILD".toList then some .build
  else if cs = "AREA".toList then some .area
  else none

/-- `CMD ( mnemonic | imm8 )`: its operand. -/
def readCmdOperand (cs : List Char) : Option Stmt :=
  match readMnemonic cs with
  | some i => some (.cmd i)
  | none => (readImm 256 cs).map fun n => .cmdByte (BitVec.ofNat 8 n)

/-- `index`, "decimal 0..17" (R80). -/
def readIndex (cs : List Char) : Option (Fin 18) :=
  match readDec cs with
  | some n => if h : n < 18 then some ⟨n, h⟩ else none
  | none => none

/-- One line's tokens as a statement or pseudo-statement (R80, R82). R82 gives the n of `RDOUT n` only its range: it is read
in decimal, as R80's index is, and a 0x-hex n is refused (DESIGN CHOICE, log entry 12). -/
def parseTokens : List (List Char) → Option SourceStmt
  | [k] => if k = "RESET".toList then some (.plain .reset) else none
  | [k, x] =>
    if k = "RD64".toList then (readReg64 x).map fun r => .plain (.rd64 r)
    else if k = "RD32".toList then (if x = "STATUS".toList then some (.plain .rd32Status) else none)
    else if k = "CMD".toList then (readCmdOperand x).map .plain
    else if k = "RDOUT".toList then (readDec x).map .rdOut
    else none
  | [k, x, c, v] =>
    if c = [','] then
      if k = "WR64".toList then
        match readReg64 x, readImm64 v with
        | some r, some n => some (.plain (.wr64 r n))
        | _, _ => none
      else if k = "RUN".toList then
        match readMnemonic x, readImm64 v with
        | some m, some a => some (.run m a)
        | _, _ => none
      else none
    else none
  | [k, o, lb, i, rb] =>
    if k = "RD8".toList ∧ o = "OUT".toList ∧ lb = ['['] ∧ rb = [']'] then
      (readIndex i).map fun n => .plain (.rd8Out n)
    else none
  | [k, x, c, v, d, w] =>
    if k = "RUN".toList ∧ c = [','] ∧ d = [','] then
      match readMnemonic x, readImm64 v, readImm64 w with
      | some m, some a, some b => some (.runPair m a b)
      | _, _, _ => none
    else none
  | _ => none

/-- The statements of a program's lines, one per line; a line without a token holds none (R80). -/
def parseLines : List (List Char) → Option (List SourceStmt)
  | [] => some []
  | l :: ls =>
    match tokens l [] with
    | [] => parseLines ls
    | t :: ts =>
      match parseTokens (t :: ts), parseLines ls with
      | some s, some rest => some (s :: rest)
      | _, _ => none

/-- A program's text as its statements, pseudo-statements expanded; none if a line is not in the grammar. -/
def parseProgram (text : List Char) : Option (List Stmt) :=
  match parseLines (linesOf text []) with
  | some ls => expandAll ls
  | none => none

/-! ### Writing a host program's text (R80, R82), in one of the forms the reader admits (log entry 12) -/

/-- A number in decimal. -/
def decText (n : Nat) : List Char := Nat.toDigits 10 n

/-- A number in 0x-hex, of `count` digits. -/
def hexText (count n : Nat) : List Char := '0' :: 'x' :: hexDigits count n

/-- The name of an operand register (R80). -/
def Reg64.name : Reg64 → List Char
  | .inA => "IN_A".toList
  | .inB => "IN_B".toList

/-- The mnemonic of a command (R73, R80). -/
def mnemonicName : Instr → List Char
  | .chsenc => "CHSENC".toList
  | .chslast => "CHSLAST".toList
  | .scnt => "SCNT".toList
  | .build => "BUILD".toList
  | .area => "AREA".toList

/-- A statement's line, numbers in decimal (R80). -/
def Stmt.text : Stmt → List Char
  | .wr64 r v => "WR64 ".toList ++ r.name ++ ", ".toList ++ decText v.toNat
  | .rd64 r => "RD64 ".toList ++ r.name
  | .rd32Status => "RD32 STATUS".toList
  | .rd8Out i => "RD8 OUT[".toList ++ decText i.val ++ "]".toList
  | .cmd i => "CMD ".toList ++ mnemonicName i
  | .cmdByte c => "CMD ".toList ++ decText c.toNat
  | .reset => "RESET".toList

/-- A line of a program, a pseudo-statement in R82's form. -/
def SourceStmt.text : SourceStmt → List Char
  | .plain s => s.text
  | .run m a => "RUN ".toList ++ mnemonicName m ++ ", ".toList ++ decText a.toNat
  | .runPair m a b => "RUN ".toList ++ mnemonicName m ++ ", ".toList ++ decText a.toNat ++ ", ".toList ++ decText b.toNat
  | .rdOut n => "RDOUT ".toList ++ decText n

/-- A program's text, one statement per line (R80). -/
def programText : List SourceStmt → List Char
  | [] => []
  | s :: rest => s.text ++ '\n' :: programText rest

/-! ### A run (R210) -/

/-- The actions of a host program one after the other, stopping at the first that has no next state. -/
def runActions : List HostAction → State → Host.Outcome State Fault Refusal
  | [], s => .next s
  | a :: rest, s =>
    match perform a s with
    | .next t => runActions rest t
    | .fault f => .fault f
    | .refused e => .refused e

/-- The run of a finite host program "executed from the reset state" (R210). A program that holds a refused access is
ill-formed and has no meaning (R33). -/
def runProgram (p : List HostAction) : Host.Outcome State Fault Refusal :=
  match programRefusal p with
  | some e => .refused e
  | none => runActions p State.reset

/-- Is the action one with the block? A device write is not (spec/00_scope.md R15). -/
def HostAction.isTransaction : HostAction → Bool
  | .transaction _ => true
  | .devWrite _ _ => false

/-- A run's observation (R210). -/
structure Observation where
  inA : Word64
  inB : Word64
  out : Vector Byte 18
  status : Word32
  reads : List ReadValue
deriving DecidableEq, Repr

/-- "the final (IN_A, IN_B, OUT, STATUS) and the sequence of values its reads returned" (R210). -/
def State.observation (s : State) : Observation where
  inA := s.inA
  inB := s.inB
  out := s.out
  status := s.statusRead
  reads := s.observed

/-- Step 2 of the whole-flow order (R204) and the read that step 3 checks: write the sizes, issue AREA, read `STATUS`. -/
def issueFlow (total bs : Word64) : List HostAction :=
  actionsOf [.wr64 .inA total, .wr64 .inB bs, .cmd .area, .rd32Status]

/-- Step 3 (R204): "check that `STATUS.ERR` = 0 and `STATUS.VALID` = 1". Only then does the host go on. -/
def State.placementAllowed (s : State) : Bool := !s.err && s.valid

/-- Step 4 (R204): read `OUT[0..17]`. -/
def resultFlow : List HostAction := actionsOf ((List.finRange 18).map .rd8Out)

/-- The two device writes of step 5 (R204, R55). -/
def placementFlow : List HostAction :=
  [.devWrite recordOffset (.outSlice 0 15), .devWrite signatureOffset (.outSlice 16 17)]

/-- The host's duty "zero-filled first block precondition" (spec/20_memory.md R56) as an action of the host, for the 512
bytes the spec's model needs (R51). Nothing checks that the host performs it. -/
def zeroFillFirstBlock : HostAction := .devWrite 0 (.literal (List.replicate 512 0))

/-- Step 5 (R204): "with the first block zero-filled" perform the two device writes. A host that keeps the order makes no
write on a block it does not find zero-filled: that it stops there is the model's choice (log entry 7). The zero-filling is
done before the flow (`zeroFillFirstBlock`; device wiping is outside the block, 00_scope.md R6), and exclusive access holds,
since the model has one host (log entry 9). -/
def placeOnZeroFilledBlock (s : State) : Host.Outcome State Fault Refusal :=
  if Memory.hasZeroFirstBlock s.device then runActions placementFlow s else .next s

/-- What follows an outcome: nothing, unless it is a next state. -/
def andThen (r : Host.Outcome State Fault Refusal) (k : State → Host.Outcome State Fault Refusal) :
    Host.Outcome State Fault Refusal :=
  match r with
  | .next t => k t
  | .fault f => .fault f
  | .refused e => .refused e

/-- A host that keeps the whole-flow order (R204), its steps 2 to 5 in their order: only after the check of step 3 does it
read the result and write the device. Its arguments are what step 1 obtains; steps 1 and 6 (finding the sizes, running the
formatter) are outside the block (R6). -/
def hostFlow (total bs : Word64) (s : State) : Host.Outcome State Fault Refusal :=
  andThen (runActions (issueFlow total bs) s) fun t =>
    if t.placementAllowed then andThen (runActions resultFlow t) placeOnZeroFilledBlock else .next t

end Sys2Proof.Machine
end

