-- ==== Sys2Proof/Safety.lean ====
section
/-! DEFINITION. What the spec promises of every state the machine can reach: the invariants claims are stated with, and the
words for what a command, a fault and a reset do. -/

namespace Sys2Proof.Machine

/-- The promises about `STATUS`: reserved bits 0 (spec/10_state.md R26); `CODE` = 0 while `ERR` = 0 (R28); a faulted block
holds a produced code, `VALID` = 0 and `OUT_LEN` = 0 (R27, R29; 60_exceptions.md R172, R173); `OUT_LEN` is one of 0, 3, 4,
16, 18 and is 0 exactly while `VALID` = 0 (R26, R29). -/
def State.StatusInv (s : State) : Prop :=
  s.status &&& ~~~statusFieldMask = 0 ∧
  (s.err = false → s.code = 0) ∧
  (s.err = true → s.valid = false ∧ 1 ≤ s.code.toNat ∧ s.code.toNat ≤ 4) ∧
  s.outLen.toNat ∈ [0, 3, 4, 16, 18] ∧
  (s.valid = false ↔ s.outLen = 0)

/-- The bytes from `OUT_LEN` on are 0x00 while a result is held (R25; 70_reset_and_hazards.md R207). -/
def State.TailZero (s : State) : Prop :=
  s.valid = true → ∀ i : Fin 18, s.outLen.toNat ≤ i.val → s.out[i] = 0

/-- A held result has the shape its command gives it: a packed CHS has a sector from 1 to 63 and a head of at most 254
(40_geometry_encoder.md R103); a record has the fixed bytes of 41_record_builder.md R138; an area ends in the boot signature
(R153). -/
def State.ResultShape (s : State) : Prop :=
  s.valid = true →
    (s.outLen = 3 →
      1 ≤ (decodeChs s.out[0] s.out[1] s.out[2]).sec.toNat ∧ (decodeChs s.out[0] s.out[1] s.out[2]).head.toNat ≤ 254) ∧
    (16 ≤ s.outLen.toNat →
      s.out.toList.take 5 = [0x00, 0x00, 0x01, 0x00, 0x0B] ∧ (s.out.toList.drop 8).take 4 = [0x00, 0x00, 0x00, 0x00]) ∧
    (s.outLen = 18 → s.out[16] = 0x55 ∧ s.out[17] = 0xAA)

/-- All that every step keeps. -/
def State.Inv (s : State) : Prop := s.StatusInv ∧ s.TailZero ∧ s.ResultShape ∧ Memory.wf s.device

/-- What no command changes: the operands (R22), every device byte (20_memory.md R50), the reserved bits of `STATUS` (R26),
what the host has to do and what it has read. `s` is the state before, `t` after. -/
def CommandFrame (s t : State) : Prop :=
  t.inA = s.inA ∧ t.inB = s.inB ∧ t.pending = s.pending ∧ t.observed = s.observed ∧
  (∀ a, Memory.read t.device a = Memory.read s.device a) ∧
  t.status &&& ~~~statusFieldMask = s.status &&& ~~~statusFieldMask

/-- A command completed with result `r`: all 18 bytes of `OUT`, `OUT_LEN` and `VALID` are written, `ERR` and `CODE` stay
(R25, R27, R29), and nothing else changed. -/
def CompletedWith (s t : State) (r : List Byte) : Prop :=
  t.out.toList = r ++ List.replicate (18 - r.length) 0 ∧ t.outLen.toNat = r.length ∧ t.valid = true ∧
  t.err = s.err ∧ t.code = s.code ∧ CommandFrame s t

/-- A fault was taken with code `c`: the four writes of 60_exceptions.md R172, and nothing else changed. -/
def FaultedWith (s t : State) (c : BitVec 3) : Prop :=
  t.err = true ∧ t.code = c ∧ t.valid = false ∧ t.outLen = 0 ∧ t.out = s.out ∧ CommandFrame s t

/-- Every register of the block holds its reset value (R37). -/
def State.RegistersReset (s : State) : Prop :=
  s.inA = 0 ∧ s.inB = 0 ∧ (∀ i : Fin 18, s.out[i] = 0) ∧ s.status = 0x00000000 ∧
  s.valid = false ∧ s.err = false ∧ s.code = 0 ∧ s.outLen = 0

/-- The value of a byte sequence read little-endian (20_memory.md R52, R54). -/
def leValue : List Byte → Nat
  | [] => 0
  | b :: bs => b.toNat + 256 * leValue bs

end Sys2Proof.Machine
end

