-- ==== Sys2Proof/Certificates/Slice0/Obligations.lean ====
section
/-! DEFINITION. The statements for the provers, one `def Obligations.<Name> : Prop` each; OBLIGATIONS.json says for each what
it claims and which rules of spec/ it rests on. A docstring names the rule; `s.setPending rest` is the state with
the action taken off the front of what the host has to do. -/

open Sys2Proof Sys2Proof.Machine

/-! ### The command byte -/

/-- Decoding and encoding are each other's inverse on the five commands (R73, R77). -/
def Obligations.DecodeEncodeAgree : Prop :=
  (∀ i : Instr, decode (encode i) = .ok i) ∧ (∀ (c : Byte) (i : Instr), decode c = .ok i → c = encode i)

/-- A few bytes written out from R70, R73 and R75 decode to what they stand for. -/
def Obligations.SpecCommandBytesDecode : Prop :=
  decode 0b00000001 = .ok .chsenc ∧ decode 0b00000010 = .ok .chslast ∧ decode 0b00000011 = .ok .scnt ∧
  decode 0b00000100 = .ok .build ∧ decode 0b00000101 = .ok .area ∧
  decode 0b00000000 = .error .unassignedOpc ∧ decode 0b00000110 = .error .unassignedOpc ∧
  decode 0b10000001 = .error .reservedNotZero ∧ decode 0b00010011 = .error .reservedNotZero

/-- R75: which bytes are illegal, how many, and that writing one to `CMD` outside the faulted state takes the fault
ILLEGAL_CMD (code 1). -/
def Obligations.IllegalBytesRaiseIllegalCmd : Prop :=
  (∀ c : Byte, (∀ i : Instr, decode c ≠ .ok i) ↔ (c = 0x00 ∨ 0x06 ≤ c.toNat)) ∧
  ((List.range 256).filter fun n => (decodeTableWord 8 n).isNone).length = 251 ∧
  (∀ (s : State) (data : Word64) (rest : List HostAction),
    s.pending = .transaction (.write 0x00 8 data) :: rest → s.err = false →
    (data.toNat % 256 = 0 ∨ 6 ≤ data.toNat % 256) →
    ∃ t, step s = .next t ∧ FaultedWith (s.setPending rest) t 1)

/-- A step runs the decoded command: a write of `CMD` whose low byte decodes to `i` steps exactly as `exec i` does, once the
write is off the front of what the host has to do (R31, R74). -/
def Obligations.StepRunsDecodedInstruction : Prop :=
  ∀ (s : State) (data : Word64) (rest : List HostAction) (i : Instr),
    s.pending = .transaction (.write 0x00 8 data) :: rest → decode (data.extractLsb' 0 8) = .ok i →
    step s = exec i (s.setPending rest)

/-- A command placed for the next step is what the next step runs, in the very state it was placed in. The queue of host
actions is the model's own (log entry 1). -/
def Obligations.PlacedCommandRunsNext : Prop :=
  ∀ (s : State) (w : Nat) (i : Instr), decodeTableWord 8 w = some i → step (s.withFetchWord 8 w) = exec i s

/-- R74, `Execute`: ignored while faulted; a non-zero RSV is illegal; OPC 1 to 5 select the commands; any other OPC is
illegal. -/
def Obligations.ExecuteFollowsOpcodeMap : Prop :=
  ∀ (s : State) (data : Word64) (rest : List HostAction),
    s.pending = .transaction (.write 0x00 8 data) :: rest →
    (s.err = true → step s = .next (s.setPending rest)) ∧
    (s.err = false → data.toNat / 16 % 16 ≠ 0 →
      ∃ t, step s = .next t ∧ FaultedWith (s.setPending rest) t 1) ∧
    (s.err = false → data.toNat / 16 % 16 = 0 →
      (data.toNat % 16 = 1 → step s = exec .chsenc (s.setPending rest)) ∧
      (data.toNat % 16 = 2 → step s = exec .chslast (s.setPending rest)) ∧
      (data.toNat % 16 = 3 → step s = exec .scnt (s.setPending rest)) ∧
      (data.toNat % 16 = 4 → step s = exec .build (s.setPending rest)) ∧
      (data.toNat % 16 = 5 → step s = exec .area (s.setPending rest)) ∧
      (data.toNat % 16 = 0 ∨ 6 ≤ data.toNat % 16 →
        ∃ t, step s = .next t ∧ FaultedWith (s.setPending rest) t 1))

/-! ### The host's transactions -/

/-- R31: the three admitted writes. -/
def Obligations.HostWriteFollowsRegisterMap : Prop :=
  ∀ (s : State) (data : Word64) (rest : List HostAction),
    (s.pending = .transaction (.write 0x08 64 data) :: rest →
      step s = .next { s with pending := rest, inA := data }) ∧
    (s.pending = .transaction (.write 0x10 64 data) :: rest →
      step s = .next { s with pending := rest, inB := data }) ∧
    (s.pending = .transaction (.write 0x00 8 data) :: rest →
      step s = execute (data.extractLsb' 0 8) (s.setPending rest))

/-- R32 over the rows of R30: an admitted read returns the register's value and changes nothing else of the state. The
reserved bits of `STATUS` read 0 (R26). -/
def Obligations.HostReadReturnsRegisterValue : Prop :=
  ∀ (s : State) (rest : List HostAction),
    (s.pending = .transaction (.read 0x04 32) :: rest →
      step s = .next { s with pending := rest, observed := s.observed ++ [.status (s.status &&& 0x00001F1F)] }) ∧
    (s.pending = .transaction (.read 0x08 64) :: rest →
      step s = .next { s with pending := rest, observed := s.observed ++ [.operand s.inA] }) ∧
    (s.pending = .transaction (.read 0x10 64) :: rest →
      step s = .next { s with pending := rest, observed := s.observed ++ [.operand s.inB] }) ∧
    (∀ i : Fin 18, s.pending = .transaction (.read (0x20 + i.val) 8) :: rest →
      step s = .next { s with pending := rest, observed := s.observed ++ [.byte s.out[i]] })

/-- R33 over the table of R30: an access has a step exactly if the table lists it, and is refused otherwise; a host program
that holds a refused access has no meaning, and any other program has one. -/
def Obligations.UnlistedAccessesAreRefused : Prop :=
  (∀ (s : State) (offset width : Nat) (data : Word64) (rest : List HostAction),
    s.pending = .transaction (.write offset width data) :: rest →
    if (offset = 0x00 ∧ width = 8) ∨ (offset = 0x08 ∧ width = 64) ∨ (offset = 0x10 ∧ width = 64)
    then ∃ t, step s = .next t
    else ∃ e, step s = .refused e) ∧
  (∀ (s : State) (offset width : Nat) (rest : List HostAction),
    s.pending = .transaction (.read offset width) :: rest →
    if (offset = 0x04 ∧ width = 32) ∨ (offset = 0x08 ∧ width = 64) ∨ (offset = 0x10 ∧ width = 64) ∨
      (0x20 ≤ offset ∧ offset ≤ 0x31 ∧ width = 8)
    then ∃ t, step s = .next t
    else ∃ e, step s = .refused e) ∧
  (∀ p : List HostAction,
    if ∃ a ∈ p, a.admitted = false then ∃ e, runProgram p = .refused e else ∃ t, runProgram p = .next t)

/-- HostReset, whatever the state before it: every register is reset (R200). That the host's queue, its reads and the device
stay is the model's choice (log entries 1, 2 and 6): they are not the block's (R21, R51, R210). -/
def Obligations.HostResetClearsEveryRegister : Prop :=
  ∀ (s : State) (rest : List HostAction), s.pending = .transaction .reset :: rest →
    ∃ t, step s = .next t ∧ t.RegistersReset ∧
      t.pending = rest ∧ t.observed = s.observed ∧ (∀ a, Memory.read t.device a = Memory.read s.device a)

/-- R37, R200, R201: the reset values hold at power-on, and after HostReset from any state, faulted or not, the registers hold
them too: those of power-on. -/
def Obligations.PowerOnEqualsHostReset : Prop :=
  State.reset.RegistersReset ∧
  (∀ (s : State) (rest : List HostAction), s.pending = .transaction .reset :: rest →
    ∃ t, step s = .next t ∧ t.RegistersReset ∧
      t.inA = State.reset.inA ∧ t.inB = State.reset.inB ∧ t.out = State.reset.out ∧ t.status = State.reset.status)

/-- The block takes no step of its own (R20): the run ends exactly when the host has nothing left to do (R210). That the model
answers this with a fault named `runEnded` is its own choice (log entry 1). -/
def Obligations.RunEndsWhenHostIsDone : Prop :=
  ∀ s : State, step s = .fault .runEnded ↔ s.pending = []

/-! ### The Geometry Encoder -/

/-- R105 (R102, R104): the three bytes of `Encode`, in exact arithmetic. -/
def Obligations.EncodePacksChsFields : Prop :=
  ∀ lba : Word64, ∃ b0 b1 b2 : Byte, encodeChs lba = [b0, b1, b2] ∧
    b0.toNat = lba.toNat / 63 % 255 % 256 ∧
    b1.toNat = lba.toNat / 16065 % 1024 / 256 * 64 + (lba.toNat % 63 + 1) % 64 ∧
    b2.toNat = lba.toNat / 16065 % 1024 % 256

/-- R103: the fields' ranges for every 64-bit LBA; the reductions mod 256 and mod 64 never change a value. -/
def Obligations.ChsFieldsStayInRange : Prop :=
  ∀ lba : Word64,
    (chsOf lba).cyl.toNat ≤ 1023 ∧ (chsOf lba).head.toNat ≤ 254 ∧
    1 ≤ (chsOf lba).sec.toNat ∧ (chsOf lba).sec.toNat ≤ 63 ∧
    (chsOf lba).cyl.toNat = lba.toNat / 16065 % 1024 ∧
    (chsOf lba).head.toNat = lba.toNat / 63 % 255 ∧ (chsOf lba).sec.toNat = lba.toNat % 63 + 1

/-- R106: what three packed bytes decode to, and that decoding an encoded LBA gives the CHS tuple of R102, from which the LBA is
known modulo 16450560. -/
def Obligations.DecodingRecoversTheLba : Prop :=
  (∀ b0 b1 b2 : Byte, (decodeChs b0 b1 b2).head = b0 ∧ (decodeChs b0 b1 b2).sec.toNat = b1.toNat % 64 ∧
    (decodeChs b0 b1 b2).cyl.toNat = b1.toNat / 64 * 256 + b2.toNat) ∧
  (∀ lba : Word64, ∃ b0 b1 b2 : Byte, encodeChs lba = [b0, b1, b2] ∧ decodeChs b0 b1 b2 = chsOf lba ∧
    (decodeChs b0 b1 b2).cyl.toNat = lba.toNat / 16065 % 1024 ∧
    (decodeChs b0 b1 b2).head.toNat = lba.toNat / 63 % 255 % 256 ∧
    (decodeChs b0 b1 b2).sec.toNat = (lba.toNat % 63 + 1) % 64 ∧
    lba.toNat % 16450560 =
      (decodeChs b0 b1 b2).cyl.toNat * 16065 + (decodeChs b0 b1 b2).head.toNat * 63 +
        ((decodeChs b0 b1 b2).sec.toNat - 1))

/-- R107: `Encode` has period 16450560, and from there on an LBA shares its packed CHS with a smaller one. -/
def Obligations.EncodeIsPeriodic : Prop :=
  (∀ lba : Word64, encodeChs lba = encodeChs (BitVec.ofNat 64 (lba.toNat % 16450560))) ∧
  (∀ lba : Word64, 16450560 ≤ lba.toNat → ∃ k : Word64, k.toNat < lba.toNat ∧ encodeChs k = encodeChs lba)

/-- Two LBAs share a packed CHS exactly if they agree modulo 16450560 (from R106 and R107). -/
def Obligations.EncodeSeparatesOnePeriod : Prop :=
  ∀ a b : Word64, encodeChs a = encodeChs b ↔ a.toNat % 16450560 = b.toNat % 16450560

/-- R108: the source's values. -/
def Obligations.EncodeSourceValues : Prop :=
  encodeChs 0 = [0x00, 0x01, 0x00] ∧ chsOf 0 = ⟨0, 0, 1⟩ ∧
  decodeChs 0xFE 0xFF 0xFF = ⟨1023, 254, 63⟩ ∧ encodeChs 16450559 = [0xFE, 0xFF, 0xFF]

/-! ### The Partition Record Builder -/

/-- R133: the last CHS is always one run of the encoder on a multiplexed input, and the boundary is no plain clamp. -/
def Obligations.LastChsIsMultiplexedEncode : Prop :=
  (∀ n : Word64, 1 ≤ n.toNat →
    lastChs n = encodeChs (if 16450559 ≤ n.toNat then 16450559 else BitVec.ofNat 64 (n.toNat - 1))) ∧
  lastChs 16450559 = [0xFE, 0xFF, 0xFF] ∧ encodeChs (16450559 - 1) = encodeChs 16450558 ∧
  encodeChs 16450558 = [0xFE, 0xFE, 0xFF]

/-- The last CHS is the saturated tuple exactly from 16450559 on, inclusive; below, it is the packed CHS of the last block
(from R132). -/
def Obligations.LastChsSaturatesExactlyAtCeiling : Prop :=
  ∀ n : Word64, 1 ≤ n.toNat →
    (lastChs n = [0xFE, 0xFF, 0xFF] ↔ 16450559 ≤ n.toNat) ∧
    (n.toNat < 16450559 → lastChs n = encodeChs (BitVec.ofNat 64 (n.toNat - 1)))

/-- R134: four bytes, least significant first. -/
def Obligations.Le32IsLittleEndian : Prop :=
  ∀ v : Word32, ∃ b0 b1 b2 b3 : Byte, le32 v = [b0, b1, b2, b3] ∧
    b0.toNat = v.toNat % 256 ∧ b1.toNat = v.toNat / 256 % 256 ∧ b2.toNat = v.toNat / 65536 % 256 ∧
    b3.toNat = v.toNat / 16777216 ∧ leValue (le32 v) = v.toNat

/-- R135: the sector-count field saturates at 2^32 - 1 and is exact below; both arms agree at the boundary. -/
def Obligations.SectorCountSaturates : Prop :=
  (∀ n : Word64, (sectorCount n).length = 4 ∧
    (4294967295 ≤ n.toNat → sectorCount n = [0xFF, 0xFF, 0xFF, 0xFF]) ∧
    (n.toNat < 4294967295 → sectorCount n = le32 (BitVec.ofNat 32 n.toNat) ∧ leValue (sectorCount n) = n.toNat)) ∧
  sectorCount 4294967295 = le32 4294967295 ∧ le32 ((4294967296 : Word64).extractLsb' 0 32) = [0x00, 0x00, 0x00, 0x00] ∧
  sectorCount 0 = [0x00, 0x00, 0x00, 0x00]

/-- R137, R138: the fields of the 16-byte record at their offsets, and its constant bytes. -/
def Obligations.RecordHasSpecLayout : Prop :=
  ∀ total bs : Word64, bs ≠ 0 → bs.toNat ≤ total.toNat →
    (record total bs).length = 16 ∧
    (record total bs).take 1 = [0x00] ∧
    ((record total bs).drop 1).take 3 = encodeChs 0 ∧
    ((record total bs).drop 4).take 1 = [0x0B] ∧
    ((record total bs).drop 5).take 3 = lastChs (BitVec.ofNat 64 (total.toNat / bs.toNat)) ∧
    ((record total bs).drop 8).take 4 = le32 0 ∧
    (record total bs).drop 12 = sectorCount (BitVec.ofNat 64 (total.toNat / bs.toNat)) ∧
    (record total bs).take 5 = [0x00, 0x00, 0x01, 0x00, 0x0B] ∧
    ((record total bs).drop 8).take 4 = [0x00, 0x00, 0x00, 0x00]

/-- R139: the two saturations are independent, and every block count has one of three outcomes. -/
def Obligations.ThreeSaturationOutcomes : Prop :=
  ∀ n : Word64, 1 ≤ n.toNat →
    (n.toNat < 16450559 → lastChs n ≠ [0xFE, 0xFF, 0xFF] ∧ leValue (sectorCount n) = n.toNat) ∧
    (16450559 ≤ n.toNat → n.toNat < 4294967295 →
      lastChs n = [0xFE, 0xFF, 0xFF] ∧ leValue (sectorCount n) = n.toNat) ∧
    (4294967295 ≤ n.toNat → lastChs n = [0xFE, 0xFF, 0xFF] ∧ sectorCount n = [0xFF, 0xFF, 0xFF, 0xFF])

/-- R141: the precondition check of BUILD and AREA, in its order, for either value of `P_REJECT_NONMULTIPLE`; an accepted
total that is no multiple is truncated. -/
def Obligations.BuildCheckFaultsInOrder : Prop :=
  ∀ (reject : Bool) (s : State), s.err = false →
    (s.inB = 0 →
      (∃ t, execBuildWith reject s = .next t ∧ FaultedWith s t 2) ∧
      (∃ t, execAreaWith reject s = .next t ∧ FaultedWith s t 2)) ∧
    (s.inB ≠ 0 → s.inA.toNat < s.inB.toNat →
      (∃ t, execBuildWith reject s = .next t ∧ FaultedWith s t 3) ∧
      (∃ t, execAreaWith reject s = .next t ∧ FaultedWith s t 3)) ∧
    (s.inB ≠ 0 → s.inB.toNat ≤ s.inA.toNat → reject = true → s.inA.toNat % s.inB.toNat ≠ 0 →
      (∃ t, execBuildWith reject s = .next t ∧ FaultedWith s t 4) ∧
      (∃ t, execAreaWith reject s = .next t ∧ FaultedWith s t 4)) ∧
    (s.inB ≠ 0 → s.inB.toNat ≤ s.inA.toNat → (reject = false ∨ s.inA.toNat % s.inB.toNat = 0) →
      (∃ t, execBuildWith reject s = .next t ∧
        CompletedWith s t (recordOf (BitVec.ofNat 64 (s.inA.toNat / s.inB.toNat)))) ∧
      (∃ t, execAreaWith reject s = .next t ∧
        CompletedWith s t (recordOf (BitVec.ofNat 64 (s.inA.toNat / s.inB.toNat)) ++ [0x55, 0xAA])))

/-! ### The five commands -/

/-- R110: CHSENC completes on every unfaulted state; it is ignored while faulted; its byte and corner cases. -/
def Obligations.ChsencWritesPackedChs : Prop :=
  (∀ s : State, s.err = false →
    ∃ t, exec .chsenc s = .next t ∧ t.out.toList = encodeChs s.inA ++ List.replicate 15 0 ∧ t.outLen = 3 ∧
      t.valid = true ∧ CompletedWith s t (encodeChs s.inA)) ∧
  (∀ s : State, s.err = true → exec .chsenc s = .next s) ∧
  encode .chsenc = 0x01 ∧
  encodeChs 0 = [0x00, 0x01, 0x00] ∧ encodeChs 62 = [0x00, 0x3F, 0x00] ∧ encodeChs 63 = [0x01, 0x01, 0x00] ∧
  encodeChs 16064 = [0xFE, 0x3F, 0x00] ∧ encodeChs 16065 = [0x00, 0x01, 0x01] ∧
  encodeChs 16450559 = [0xFE, 0xFF, 0xFF] ∧ encodeChs 16450560 = [0x00, 0x01, 0x00] ∧
  encodeChs 18446744073709551615 = [0xBE, 0x90, 0xAE] ∧ chsOf 18446744073709551615 = ⟨686, 190, 16⟩ ∧
  chsOf 16194 = ⟨1, 2, 4⟩ ∧ encodeChs 16194 = [0x02, 0x04, 0x01]

/-- R150: CHSLAST completes on every non-zero count, and takes EMPTY_DEVICE (code 3) on 0; its byte and corner cases. -/
def Obligations.ChslastWritesLastChs : Prop :=
  (∀ s : State, s.err = false → s.inA ≠ 0 →
    ∃ t, exec .chslast s = .next t ∧ t.out.toList = lastChs s.inA ++ List.replicate 15 0 ∧ t.outLen = 3 ∧
      t.valid = true ∧ CompletedWith s t (lastChs s.inA)) ∧
  (∀ s : State, s.err = false → s.inA = 0 → ∃ t, exec .chslast s = .next t ∧ FaultedWith s t 3) ∧
  encode .chslast = 0x02 ∧
  lastChs 1 = [0x00, 0x01, 0x00] ∧ lastChs 16450557 = encodeChs 16450556 ∧ lastChs 16450557 = [0xFE, 0xFC, 0xFF] ∧
  lastChs 16450558 = encodeChs 16450557 ∧ lastChs 16450558 = [0xFE, 0xFD, 0xFF] ∧
  lastChs 16450559 = [0xFE, 0xFF, 0xFF] ∧ lastChs 16450560 = [0xFE, 0xFF, 0xFF] ∧
  lastChs 18446744073709551615 = [0xFE, 0xFF, 0xFF] ∧
  lastChs 63 = encodeChs 62 ∧ lastChs 63 = [0x00, 0x3F, 0x00]

/-- R151: SCNT completes on every unfaulted state, a count of 0 included; its byte and corner cases. -/
def Obligations.ScntWritesSectorCount : Prop :=
  (∀ s : State, s.err = false →
    ∃ t, exec .scnt s = .next t ∧ t.out.toList = sectorCount s.inA ++ List.replicate 14 0 ∧ t.outLen = 4 ∧
      t.valid = true ∧ CompletedWith s t (sectorCount s.inA)) ∧
  encode .scnt = 0x03 ∧
  sectorCount 0 = [0x00, 0x00, 0x00, 0x00] ∧ sectorCount 4294967294 = [0xFE, 0xFF, 0xFF, 0xFF] ∧
  sectorCount 4294967295 = [0xFF, 0xFF, 0xFF, 0xFF] ∧ sectorCount 4294967296 = [0xFF, 0xFF, 0xFF, 0xFF] ∧
  sectorCount 18446744073709551615 = [0xFF, 0xFF, 0xFF, 0xFF] ∧ sectorCount 0x12345678 = [0x78, 0x56, 0x34, 0x12]

/-- R152: where BUILD completes and with what; where it faults, in priority order; its byte and corner cases. -/
def Obligations.BuildWritesRecord : Prop :=
  (∀ s : State, s.err = false → s.inB ≠ 0 → s.inB.toNat ≤ s.inA.toNat →
    (s.inA.toNat % s.inB.toNat = 0 ∨ Config.rejectNonmultiple = false) →
    ∃ t, exec .build s = .next t ∧ t.out.toList = record s.inA s.inB ++ List.replicate 2 0 ∧ t.outLen = 16 ∧
      t.valid = true ∧ CompletedWith s t (record s.inA s.inB)) ∧
  (∀ s : State, s.err = false → s.inB = 0 → ∃ t, exec .build s = .next t ∧ FaultedWith s t 2) ∧
  (∀ s : State, s.err = false → s.inB ≠ 0 → s.inA.toNat < s.inB.toNat →
    ∃ t, exec .build s = .next t ∧ FaultedWith s t 3) ∧
  (∀ s : State, s.err = false → s.inB ≠ 0 → s.inB.toNat ≤ s.inA.toNat → s.inA.toNat % s.inB.toNat ≠ 0 →
    ∃ t, exec .build s = .next t ∧ (Config.rejectNonmultiple = true → FaultedWith s t 4)) ∧
  encode .build = 0x04 ∧
  (∀ a : Word64, a ≠ 0 → record a a =
    [0x00, 0x00, 0x01, 0x00, 0x0B, 0x00, 0x01, 0x00, 0x00, 0x00, 0x00, 0x00, 0x01, 0x00, 0x00, 0x00]) ∧
  lastChs 16450558 = [0xFE, 0xFD, 0xFF] ∧ lastChs 16450559 = [0xFE, 0xFF, 0xFF] ∧
  sectorCount 4294967294 = [0xFE, 0xFF, 0xFF, 0xFF] ∧
  (∀ n : Word64, 4294967295 ≤ n.toNat → sectorCount n = [0xFF, 0xFF, 0xFF, 0xFF]) ∧
  buildResult false 1000 512 = .ok (recordOf 1) ∧ buildResult true 1000 512 = .error .nonmultiple ∧
  maxLba 8589934592 512 = 16777216 ∧
  record 8589934592 512 =
    [0x00, 0x00, 0x01, 0x00, 0x0B, 0xFE, 0xFF, 0xFF, 0x00, 0x00, 0x00, 0x00, 0x00, 0x00, 0x00, 0x01]

/-- R153: where AREA completes and with what; where it faults, as BUILD; its byte and worked example. -/
def Obligations.AreaWritesRecordAndSignature : Prop :=
  (∀ s : State, s.err = false → s.inB ≠ 0 → s.inB.toNat ≤ s.inA.toNat →
    (s.inA.toNat % s.inB.toNat = 0 ∨ Config.rejectNonmultiple = false) →
    ∃ t, exec .area s = .next t ∧ t.out.toList = record s.inA s.inB ++ [0x55, 0xAA] ∧ t.outLen = 18 ∧
      t.valid = true ∧ t.out[16] = 0x55 ∧ t.out[17] = 0xAA ∧
      CompletedWith s t (area s.inA s.inB)) ∧
  (∀ s : State, s.err = false → s.inB = 0 → ∃ t, exec .area s = .next t ∧ FaultedWith s t 2) ∧
  (∀ s : State, s.err = false → s.inB ≠ 0 → s.inA.toNat < s.inB.toNat →
    ∃ t, exec .area s = .next t ∧ FaultedWith s t 3) ∧
  (∀ s : State, s.err = false → s.inB ≠ 0 → s.inB.toNat ≤ s.inA.toNat → s.inA.toNat % s.inB.toNat ≠ 0 →
    ∃ t, exec .area s = .next t ∧ (Config.rejectNonmultiple = true → FaultedWith s t 4)) ∧
  encode .area = 0x05 ∧
  area 512 512 = [0x00, 0x00, 0x01, 0x00, 0x0B, 0x00, 0x01, 0x00, 0x00, 0x00, 0x00, 0x00, 0x01, 0x00, 0x00, 0x00,
    0x55, 0xAA]

/-- The open parameter decides one case and no other: on an unfaulted block with an accepted size that is no multiple it faults
(true) or truncates (false); in every other state both values do the same; `exec` takes it from `Config` (R12, R141). -/
def Obligations.OpenParameterDecidesNonMultiples : Prop :=
  (∀ s : State, s.err = false → s.inB ≠ 0 → s.inB.toNat ≤ s.inA.toNat → s.inA.toNat % s.inB.toNat ≠ 0 →
    (∃ t, execBuildWith true s = .next t ∧ FaultedWith s t 4) ∧
    (∃ t, execAreaWith true s = .next t ∧ FaultedWith s t 4) ∧
    (∃ t, execBuildWith false s = .next t ∧ CompletedWith s t (record s.inA s.inB)) ∧
    (∃ t, execAreaWith false s = .next t ∧ CompletedWith s t (area s.inA s.inB))) ∧
  (∀ s : State,
    s.err = true ∨ s.inB = 0 ∨ s.inA.toNat < s.inB.toNat ∨ s.inA.toNat % s.inB.toNat = 0 →
    execBuildWith true s = execBuildWith false s ∧ execAreaWith true s = execAreaWith false s) ∧
  (∀ s : State, exec .build s = execBuildWith Config.rejectNonmultiple s ∧
    exec .area s = execAreaWith Config.rejectNonmultiple s)

/-! ### Faults -/

/-- R172: what taking a fault writes and that nothing else changes. -/
def Obligations.FaultActionWritesStatusOnly : Prop :=
  ∀ (s : State) (c : FaultCode), FaultedWith s (s.raise c) c.code ∧ (s.raise c).device = s.device

/-- R175: a command reports at most one fault, the first that applies, whatever else would apply too. -/
def Obligations.FirstApplicableFaultIsReported : Prop :=
  ∀ (s : State) (data : Word64) (rest : List HostAction),
    s.pending = .transaction (.write 0x00 8 data) :: rest →
    if s.err = true then step s = .next (s.setPending rest)
    else if data.toNat % 256 = 0 ∨ 6 ≤ data.toNat % 256 then
      ∃ t, step s = .next t ∧ FaultedWith (s.setPending rest) t 1
    else if 4 ≤ data.toNat % 256 ∧ s.inB = 0 then
      ∃ t, step s = .next t ∧ FaultedWith (s.setPending rest) t 2
    else if (4 ≤ data.toNat % 256 ∧ s.inA.toNat < s.inB.toNat) ∨ (data.toNat % 256 = 2 ∧ s.inA = 0) then
      ∃ t, step s = .next t ∧ FaultedWith (s.setPending rest) t 3
    else if 4 ≤ data.toNat % 256 ∧ s.inA.toNat % s.inB.toNat ≠ 0 then
      ∃ t, step s = .next t ∧
        ((Config.rejectNonmultiple = true ∧ FaultedWith (s.setPending rest) t 4) ∨
          (Config.rejectNonmultiple = false ∧ t.err = false ∧ t.valid = true))
    else ∃ t, step s = .next t ∧ t.err = false ∧ t.valid = true

/-- R176: a faulted block ignores every command byte and keeps its code; the host's writes of IN_A and IN_B and its admitted
reads, each returning its register's value, still work. -/
def Obligations.FaultedBlockIgnoresCommands : Prop :=
  ∀ (s : State) (rest : List HostAction), s.err = true →
    (∀ data : Word64, s.pending = .transaction (.write 0x00 8 data) :: rest →
      step s = .next (s.setPending rest)) ∧
    (∀ i : Instr, exec i s = .next s) ∧
    (∀ data : Word64, s.pending = .transaction (.write 0x08 64 data) :: rest →
      step s = .next { s with pending := rest, inA := data }) ∧
    (∀ data : Word64, s.pending = .transaction (.write 0x10 64 data) :: rest →
      step s = .next { s with pending := rest, inB := data }) ∧
    (∀ offset width : Nat, s.pending = .transaction (.read offset width) :: rest →
      (Transaction.read offset width).admitted = true →
      ∃ r v, admitRead offset width = .ok r ∧ s.readRegister r = .ok v ∧
        step s = .next { s with pending := rest, observed := s.observed ++ [v] })

/-- R174: CHSENC and SCNT never fault, and their bytes are never illegal. -/
def Obligations.ChsencAndScntNeverFault : Prop :=
  decode 0x01 = .ok .chsenc ∧ decode 0x03 = .ok .scnt ∧
  ∀ s : State, s.err = false →
    (∃ t, exec .chsenc s = .next t ∧ t.err = false ∧ t.code = s.code) ∧
    (∃ t, exec .scnt s = .next t ∧ t.err = false ∧ t.code = s.code)

/-- R170: neither saturation, of one field or of both, nor the wrap of a large LBA is a fault. -/
def Obligations.SaturationIsNoFault : Prop :=
  ∀ s : State, s.err = false →
    (16450559 ≤ s.inA.toNat →
      ∃ t, exec .chslast s = .next t ∧ t.err = false ∧ t.out.toList.take 3 = [0xFE, 0xFF, 0xFF]) ∧
    (4294967295 ≤ s.inA.toNat →
      ∃ t, exec .scnt s = .next t ∧ t.err = false ∧ t.out.toList.take 4 = [0xFF, 0xFF, 0xFF, 0xFF]) ∧
    (16450560 ≤ s.inA.toNat →
      ∃ t, exec .chsenc s = .next t ∧ t.err = false ∧
        t.out.toList.take 3 = encodeChs (BitVec.ofNat 64 (s.inA.toNat % 16450560))) ∧
    (s.inB ≠ 0 → 16450559 ≤ s.inA.toNat / s.inB.toNat →
      (s.inA.toNat % s.inB.toNat = 0 ∨ Config.rejectNonmultiple = false) →
      (∃ t, exec .build s = .next t ∧ t.err = false ∧ (t.out.toList.drop 5).take 3 = [0xFE, 0xFF, 0xFF] ∧
        (t.out.toList.drop 12).take 4 = sectorCount (BitVec.ofNat 64 (s.inA.toNat / s.inB.toNat)) ∧
        (4294967295 ≤ s.inA.toNat / s.inB.toNat → (t.out.toList.drop 12).take 4 = [0xFF, 0xFF, 0xFF, 0xFF])) ∧
      (∃ t, exec .area s = .next t ∧ t.err = false ∧ (t.out.toList.drop 5).take 3 = [0xFE, 0xFF, 0xFF] ∧
        (t.out.toList.drop 12).take 4 = sectorCount (BitVec.ofNat 64 (s.inA.toNat / s.inB.toNat)) ∧
        (4294967295 ≤ s.inA.toNat / s.inB.toNat → (t.out.toList.drop 12).take 4 = [0xFF, 0xFF, 0xFF, 0xFF])))

/-- The fault latch over every step (R28, R171, R176): a faulted block stays faulted with the same code until HostReset, and
an unfaulted one becomes faulted only by a write of `CMD` that takes a fault. -/
def Obligations.FaultLatchHoldsUntilReset : Prop :=
  ∀ s t : State, step s = .next t →
    (s.err = true →
      (∃ rest, s.pending = .transaction .reset :: rest ∧ t.err = false ∧ t.code = 0) ∨ (t.err = true ∧ t.code = s.code)) ∧
    (s.err = false → t.err = true →
      ∃ (data : Word64) (rest : List HostAction) (c : FaultCode),
        s.pending = .transaction (.write 0x00 8 data) :: rest ∧ t = (s.setPending rest).raise c)

/-! ### Whole-machine rules -/

/-- The frame of every command: whatever it does, only `OUT` and the fields of `STATUS` may change (R22, R25, R26, R50). -/
def Obligations.CommandsWriteOnlyOutAndStatus : Prop :=
  ∀ (i : Instr) (s : State), ∃ t, exec i s = .next t ∧ CommandFrame s t

/-- Issuing a command a second time changes nothing more (from R62, R154, R176). -/
def Obligations.RepeatingACommandChangesNothing : Prop :=
  ∀ (i : Instr) (s t : State), exec i s = .next t → exec i t = .next t

/-- R154: two states that agree on IN_A, IN_B and on being unfaulted give a command byte the same outcome, whatever else
differs: the same `OUT`, length and validity, or the same fault. -/
def Obligations.ResultDependsOnlyOnOperands : Prop :=
  ∀ (c : Byte) (s s' : State), s.inA = s'.inA → s.inB = s'.inB → s.err = s'.err →
    ∃ t t', execute c s = .next t ∧ execute c s' = .next t' ∧
      (s.err = true → t = s ∧ t' = s') ∧
      (s.err = false →
        t.err = t'.err ∧ t.valid = t'.valid ∧ t.outLen = t'.outLen ∧
        (t.err = false → t.out = t'.out) ∧ (t.err = true → t.code = t'.code ∧ t.out = s.out ∧ t'.out = s'.out))

/-- CHSENC, CHSLAST and SCNT ignore IN_B: their result is the same whatever it holds (R24). -/
def Obligations.OneOperandCommandsIgnoreInB : Prop :=
  ∀ (s : State) (b : Word64) (i : Instr), i = .chsenc ∨ i = .chslast ∨ i = .scnt →
    ∃ t t', exec i s = .next t ∧ exec i (s.setInB b) = .next t' ∧ t' = t.setInB b

/-- R206: results are not live. A step that is neither a write of `CMD` nor a reset leaves `OUT` and `STATUS` as they are; the
writes of the operands are such steps. -/
def Obligations.ResultsAreNotLive : Prop :=
  (∀ s t : State, step s = .next t →
    (∀ data rest, s.pending ≠ .transaction (.write 0x00 8 data) :: rest) →
    (∀ rest, s.pending ≠ .transaction .reset :: rest) → t.out = s.out ∧ t.status = s.status) ∧
  (∀ (s : State) (data : Word64) (rest : List HostAction),
    s.pending = .transaction (.write 0x08 64 data) :: rest ∨ s.pending = .transaction (.write 0x10 64 data) :: rest →
    ∃ t, step s = .next t ∧ t.out = s.out ∧ t.status = s.status)

/-- `OUT` changes only where a command completes, which writes all 18 bytes, or at HostReset (R25, R37). -/
def Obligations.OutIsWrittenWholeOrNotAtAll : Prop :=
  ∀ s t : State, step s = .next t →
    t.out = s.out ∨ (∃ rest, s.pending = .transaction .reset :: rest ∧ ∀ k : Fin 18, t.out[k] = 0) ∨
    (∃ (data : Word64) (rest : List HostAction) (i : Instr) (r : List Byte),
      s.pending = .transaction (.write 0x00 8 data) :: rest ∧ decode (data.extractLsb' 0 8) = .ok i ∧ s.err = false ∧
      t.valid = true ∧ t.outLen.toNat = r.length ∧ t.out.toList = r ++ List.replicate (18 - r.length) 0)

/-- AREA is BUILD and two more bytes: it faults where BUILD does and with the same code, and else holds BUILD's record followed
by the signature (R140, R152, R153). -/
def Obligations.AreaExtendsBuild : Prop :=
  ∀ s : State, s.err = false →
    ∃ t u, exec .build s = .next t ∧ exec .area s = .next u ∧ t.err = u.err ∧ t.code = u.code ∧ t.valid = u.valid ∧
      (t.valid = true → u.out.toList = t.out.toList.take 16 ++ [0x55, 0xAA] ∧ t.outLen = 16 ∧ u.outLen = 18)

/-- A record's last CHS and sector count are what CHSLAST and SCNT give on the block count IN_A div IN_B (R131, R137, R150,
R151). -/
def Obligations.BuildAgreesWithSubcommands : Prop :=
  ∀ s : State, s.err = false → s.inB ≠ 0 → s.inB.toNat ≤ s.inA.toNat → s.inA.toNat % s.inB.toNat = 0 →
    ∃ t u v, exec .build s = .next t ∧
      exec .chslast (s.setInA (BitVec.ofNat 64 (s.inA.toNat / s.inB.toNat))) = .next u ∧
      exec .scnt (s.setInA (BitVec.ofNat 64 (s.inA.toNat / s.inB.toNat))) = .next v ∧
      u.valid = true ∧ v.valid = true ∧
      (t.out.toList.drop 5).take 3 = u.out.toList.take 3 ∧ (t.out.toList.drop 12).take 4 = v.out.toList.take 4

/-- R54: the bytes `OUT[12..15]` of a BUILD result read little-endian give min(maxLBA, 2^32 - 1), and no wider access to `OUT`
is admitted. -/
def Obligations.SectorCountReadsBackLittleEndian : Prop :=
  (∀ s : State, s.err = false → s.inB ≠ 0 → s.inB.toNat ≤ s.inA.toNat →
    ∃ t, exec .build s = .next t ∧
      (t.valid = true →
        leValue ((t.out.toList.drop 12).take 4) = min (s.inA.toNat / s.inB.toNat) 4294967295)) ∧
  (∀ s : State, s.err = false → s.inB ≠ 0 → s.inB.toNat ≤ s.inA.toNat → s.inA.toNat % s.inB.toNat = 0 →
    ∃ t, exec .build s = .next t ∧ t.valid = true) ∧
  (∀ (offset width : Nat) (data : Word64), 0x20 ≤ offset → offset ≤ 0x31 → width ≠ 8 →
    (Transaction.read offset width).admitted = false ∧ (Transaction.write offset width data).admitted = false)

/-- The invariant holds at reset. -/
def Obligations.InvariantHoldsAtReset : Prop := State.reset.Inv

/-- Every step keeps the invariant: the promises about `STATUS`, the zero tail and the shape of a held result, and the
canonical form of the device's bytes (R25 to R29, R103, R138, R153, R172). -/
def Obligations.EveryStepKeepsInvariant : Prop :=
  ∀ s t : State, s.Inv → step s = .next t → t.Inv

/-- The word the host reads from `STATUS` after a command (95_test_vectors.md): one value for each command's completion, one
for each fault. -/
def Obligations.StatusWordsAfterCommands : Prop :=
  ∀ (i : Instr) (s : State), s.StatusInv → s.err = false →
    ∃ t, exec i s = .next t ∧
      ((t.valid = true ∧ t.statusRead =
          match i with
          | .chsenc => 0x00000301
          | .chslast => 0x00000301
          | .scnt => 0x00000401
          | .build => 0x00001001
          | .area => 0x00001201) ∨
        (t.valid = false ∧
          ((t.code = 2 ∧ t.statusRead = 0x0000000A) ∨ (t.code = 3 ∧ t.statusRead = 0x0000000E) ∨
            (t.code = 4 ∧ t.statusRead = 0x00000012))))

/-! ### The device -/

/-- A device write changes exactly the bytes it carries, at consecutive offsets, and nothing else (R15, R52, R55); the host's
placement of a BUILD result is one such write, of the record alone, without the signature (R55). That the write is an action
of the host in this form is log entry 7. -/
def Obligations.DevWriteStoresItsBytes : Prop :=
  (∀ (s : State) (offset : Nat) (b : DevBytes) (rest : List HostAction), s.pending = .devWrite offset b :: rest →
    ∃ t, step s = .next t ∧
      (∀ a, Memory.read t.device a =
        if offset ≤ a ∧ a < offset + (s.devBytes b).length then (s.devBytes b)[a - offset]?
        else Memory.read s.device a) ∧
      (∀ bytes, b = .literal bytes → s.devBytes b = bytes) ∧
      (∀ first last : Fin 18, b = .outSlice first last → ∀ k, first.val + k ≤ last.val →
        (s.devBytes b)[k]? = s.out[first.val + k]?) ∧
      (∀ first last : Fin 18, b = .outSlice first last → (s.devBytes b).length = last.val + 1 - first.val) ∧
      t.inA = s.inA ∧ t.inB = s.inB ∧ t.out = s.out ∧ t.status = s.status ∧ t.observed = s.observed ∧ t.pending = rest) ∧
  (∀ s : State, s.err = false → s.inB ≠ 0 → s.inB.toNat ≤ s.inA.toNat →
    (s.inA.toNat % s.inB.toNat = 0 ∨ Config.rejectNonmultiple = false) →
    ∃ t, exec .build s = .next t ∧ perform (.devWrite 446 (.outSlice 0 15)) t = .next t.placeRecord ∧
      ∀ a, Memory.read t.placeRecord.device a =
        if 446 ≤ a ∧ a < 462 then (record s.inA s.inB)[a - 446]? else Memory.read s.device a)

/-- R57 with R55: on a zero-filled first block, the two writes of an AREA result leave the record at 446 to 461, the
signature at 510 and 511, and zeros elsewhere in 0 to 511; so the other three partition-table slots are zero. -/
def Obligations.AreaPlacementOnZeroFilledBlock : Prop :=
  ∀ s : State, Memory.firstBlockZero s.device → s.out[16] = 0x55 → s.out[17] = 0xAA →
    (∀ a, a ≤ 445 → Memory.read s.placeArea.device a = some 0) ∧
    (∀ i : Fin 16, Memory.read s.placeArea.device (446 + i.val) = some s.out[i.val]) ∧
    (∀ a, 462 ≤ a → a ≤ 509 → Memory.read s.placeArea.device a = some 0) ∧
    Memory.read s.placeArea.device 510 = some 0x55 ∧ Memory.read s.placeArea.device 511 = some 0xAA

/-- A host that keeps the whole-flow order (R204, R55), from any state. Where the block was faulted already or AREA faults, for
whatever cause, the host reads STATUS and stops: it reads no result and leaves the device alone. Where AREA completes, on an
exact multiple or a truncated one, the host reads STATUS and all of OUT; on a zero-filled first block the record then stands
at 446 to 461, the signature at 510 and 511, and every other byte is as before. That the host leaves a block alone that is not
zero-filled, and how its writes act, is log entry 7. -/
def Obligations.WholeFlowWritesDeviceOnlyAfterFaultFreeArea : Prop :=
  ∀ (total bs : Word64) (s : State),
    ∃ t, hostFlow total bs s = .next t ∧ t.inA = total ∧ t.inB = bs ∧ t.pending = s.pending ∧
      (s.err = true ∨ bs = 0 ∨ total.toNat < bs.toNat ∨
          (total.toNat % bs.toNat ≠ 0 ∧ Config.rejectNonmultiple = true) →
        t.err = true ∧ t.observed = s.observed ++ [.status t.statusRead] ∧
        ∀ a, Memory.read t.device a = Memory.read s.device a) ∧
      (s.err = false → bs ≠ 0 → bs.toNat ≤ total.toNat →
          (total.toNat % bs.toNat = 0 ∨ Config.rejectNonmultiple = false) →
        t.err = false ∧ t.valid = true ∧ t.out.toList = area total bs ∧
        t.observed = s.observed ++ [.status t.statusRead] ++ (List.finRange 18).map (fun i => .byte t.out[i]) ∧
        (Memory.firstBlockZero s.device → ∀ a, Memory.read t.device a =
          if 446 ≤ a ∧ a < 462 then (record total bs)[a - 446]?
          else if a = 510 then some 0x55 else if a = 511 then some 0xAA else Memory.read s.device a) ∧
        (¬ Memory.firstBlockZero s.device → ∀ a, Memory.read t.device a = Memory.read s.device a))

/-- R50: the block performs no memory access. A transaction writes no byte of the device, and whatever the device holds, it
does the same. -/
def Obligations.TransactionsNeitherReadNorWriteTheDevice : Prop :=
  ∀ (s t : State) (tr : Transaction) (rest : List HostAction), s.pending = .transaction tr :: rest → step s = .next t →
    (∀ a, Memory.read t.device a = Memory.read s.device a) ∧
    (∀ d : Memory, step { s with device := d } = .next { t with device := d })

/-! ### Host programs -/

/-- R81: the transaction and the written form of every statement; each is admitted by the register map. -/
def Obligations.StatementsEncodeAsTransactions : Prop :=
  (∀ st : Stmt, st.transaction.admitted = true) ∧
  (∀ v : Word64, (Stmt.wr64 .inA v).transaction = .write 0x08 64 v ∧
    (Stmt.wr64 .inA v).transaction.render = "W 08 64 ".toList ++ hexDigits 16 v.toNat) ∧
  (∀ v : Word64, (Stmt.wr64 .inB v).transaction = .write 0x10 64 v ∧
    (Stmt.wr64 .inB v).transaction.render = "W 10 64 ".toList ++ hexDigits 16 v.toNat) ∧
  ((Stmt.rd64 .inA).transaction = .read 0x08 64 ∧ (Stmt.rd64 .inA).transaction.render = "R 08 64".toList) ∧
  ((Stmt.rd64 .inB).transaction = .read 0x10 64 ∧ (Stmt.rd64 .inB).transaction.render = "R 10 64".toList) ∧
  (Stmt.rd32Status.transaction = .read 0x04 32 ∧ Stmt.rd32Status.transaction.render = "R 04 32".toList) ∧
  (∀ i : Fin 18, (Stmt.rd8Out i).transaction = .read (0x20 + i.val) 8 ∧
    (Stmt.rd8Out i).transaction.render = "R ".toList ++ hexDigits 2 (0x20 + i.val) ++ " 8".toList) ∧
  (∀ i : Instr, (Stmt.cmd i).transaction = .write 0x00 8 ((encode i).setWidth 64) ∧
    (Stmt.cmd i).transaction.render = "W 00 8 ".toList ++ hexDigits 2 (encode i).toNat) ∧
  (∀ c : Byte, (Stmt.cmdByte c).transaction = .write 0x00 8 (c.setWidth 64) ∧
    (Stmt.cmdByte c).transaction.render = "W 00 8 ".toList ++ hexDigits 2 c.toNat) ∧
  (Stmt.reset.transaction = .reset ∧ Stmt.reset.transaction.render = ['X'])

/-- R82: the expansions of the pseudo-statements. -/
def Obligations.PseudoStatementsExpand : Prop :=
  (∀ (m : Instr) (a : Word64), m = .chsenc ∨ m = .chslast ∨ m = .scnt →
    (SourceStmt.run m a).expand = some [.wr64 .inA a, .cmd m]) ∧
  (∀ (m : Instr) (a b : Word64), m = .build ∨ m = .area →
    (SourceStmt.runPair m a b).expand = some [.wr64 .inA a, .wr64 .inB b, .cmd m]) ∧
  (∀ n : Nat, 1 ≤ n → n ≤ 18 →
    ∃ l, (SourceStmt.rdOut n).expand = some l ∧ l.length = n ∧
      ∀ k : Fin 18, k.val < n → l[k.val]? = some (.rd8Out k))

/-- The written form of a transaction can be read back: every offset, width and data value survives (R81; the reader is the
model's own, log entry 12). -/
def Obligations.WrittenTransactionsReadBack : Prop :=
  ∀ t : Transaction, t.admitted = true → (∀ offset width data, t = .write offset width data → data.toNat < 2 ^ width) →
    Transaction.parse t.render = some t

/-- A host program run action by action ends where the machine ends that steps with the program loaded (R20, R210; the loading
is log entry 1). -/
def Obligations.RunAgreesWithSteps : Prop :=
  ∀ (p : List HostAction) (s : State), s.pending = [] → core.run p.length (s.setPending p) = runActions p s

/-- An operand not written since reset holds 0, so BUILD and AREA issued right after reset take BS_ZERO (R203). -/
def Obligations.UnwrittenOperandFaultsAfterReset : Prop :=
  (∃ t, exec .build State.reset = .next t ∧ FaultedWith State.reset t 2) ∧
  (∃ t, exec .area State.reset = .next t ∧ FaultedWith State.reset t 2)

/-- The text of a host program reads back as its statements, pseudo-statements expanded (R80, R82): every register, mnemonic,
index and number survives, and a line whose form R82 does not expand has none. Immediates are read in decimal and in 0x-hex,
those out of the grammar's range are refused, and a comment runs to the end of its line. How the text is spaced, and that the n
of RDOUT is decimal, is the model's choice (log entry 12). -/
def Obligations.ProgramTextReadsBack : Prop :=
  (∀ p : List SourceStmt, parseProgram (programText p) = expandAll p) ∧
  (∀ v : Word64, readImm64 (decText v.toNat) = some v ∧ readImm64 (hexText 16 v.toNat) = some v) ∧
  (∀ c : Byte, readCmdOperand (decText c.toNat) = some (.cmdByte c) ∧
    readCmdOperand (hexText 2 c.toNat) = some (.cmdByte c)) ∧
  (∀ n : Nat, (2 ^ 64 ≤ n → readImm64 (decText n) = none) ∧ (256 ≤ n → readCmdOperand (decText n) = none) ∧
    (18 ≤ n → readIndex (decText n) = none)) ∧
  (∀ line comment : List Char, ';' ∉ line → tokens (line ++ ';' :: comment) [] = tokens line [])

/-- The observation of a run (R210): a run starts from the reset state and ends after the program's last action; its
observation is the final IN_A, IN_B, OUT and STATUS and the sequence of values its reads returned, one for each read, the
value its register held then; the device writes of the program are not seen in it. That the values are kept in a list of the
state is log entry 2, that an observed STATUS is the word a read returns log entry 14. -/
def Obligations.RunObservationIsFinalRegistersAndReads : Prop :=
  runProgram [] = .next State.reset ∧
  State.reset.observation = ⟨0, 0, Vector.replicate 18 0, 0, []⟩ ∧
  (∀ (p : List HostAction) (t : State), runProgram p = .next t →
    t.pending = [] ∧ t.observation = ⟨t.inA, t.inB, t.out, t.status, t.observed⟩) ∧
  (∀ (p : List HostAction) (a : HostAction) (t : State), runProgram p = .next t → a.admitted = true →
    ∃ u, runProgram (p ++ [a]) = .next u ∧ perform a t = .next u ∧
      (∀ offset width, a = .transaction (.read offset width) →
        ∃ r v, admitRead offset width = .ok r ∧ t.readRegister r = .ok v ∧
          u.observation.reads = t.observation.reads ++ [v]) ∧
      ((∀ offset width, a ≠ .transaction (.read offset width)) → u.observation.reads = t.observation.reads)) ∧
  (∀ (p : List HostAction) (t : State), runProgram p = .next t →
    ∃ u, runProgram (p.filter HostAction.isTransaction) = .next u ∧ u.observation = t.observation)
end

