-- ==== Sys2Proof/Laws/State.lean ====
section
/-! SUPPORT. One lemma per field of `State` per update, so that no proof unfolds a record update. -/

namespace Sys2Proof.Machine

@[simp] theorem State.setInA_inA (s : State) (v : Word64) :
    (s.setInA v).inA = v := rfl

@[simp] theorem State.setInA_inB (s : State) (v : Word64) :
    (s.setInA v).inB = s.inB := rfl

@[simp] theorem State.setInA_out (s : State) (v : Word64) :
    (s.setInA v).out = s.out := rfl

@[simp] theorem State.setInA_status (s : State) (v : Word64) :
    (s.setInA v).status = s.status := rfl

@[simp] theorem State.setInA_pending (s : State) (v : Word64) :
    (s.setInA v).pending = s.pending := rfl

@[simp] theorem State.setInA_observed (s : State) (v : Word64) :
    (s.setInA v).observed = s.observed := rfl

@[simp] theorem State.setInA_device (s : State) (v : Word64) :
    (s.setInA v).device = s.device := rfl

@[simp] theorem State.setInB_inA (s : State) (v : Word64) :
    (s.setInB v).inA = s.inA := rfl

@[simp] theorem State.setInB_inB (s : State) (v : Word64) :
    (s.setInB v).inB = v := rfl

@[simp] theorem State.setInB_out (s : State) (v : Word64) :
    (s.setInB v).out = s.out := rfl

@[simp] theorem State.setInB_status (s : State) (v : Word64) :
    (s.setInB v).status = s.status := rfl

@[simp] theorem State.setInB_pending (s : State) (v : Word64) :
    (s.setInB v).pending = s.pending := rfl

@[simp] theorem State.setInB_observed (s : State) (v : Word64) :
    (s.setInB v).observed = s.observed := rfl

@[simp] theorem State.setInB_device (s : State) (v : Word64) :
    (s.setInB v).device = s.device := rfl

@[simp] theorem State.observe_inA (s : State) (v : ReadValue) :
    (s.observe v).inA = s.inA := rfl

@[simp] theorem State.observe_inB (s : State) (v : ReadValue) :
    (s.observe v).inB = s.inB := rfl

@[simp] theorem State.observe_out (s : State) (v : ReadValue) :
    (s.observe v).out = s.out := rfl

@[simp] theorem State.observe_status (s : State) (v : ReadValue) :
    (s.observe v).status = s.status := rfl

@[simp] theorem State.observe_pending (s : State) (v : ReadValue) :
    (s.observe v).pending = s.pending := rfl

@[simp] theorem State.observe_observed (s : State) (v : ReadValue) :
    (s.observe v).observed = s.observed ++ [v] := rfl

@[simp] theorem State.observe_device (s : State) (v : ReadValue) :
    (s.observe v).device = s.device := rfl

@[simp] theorem State.complete_inA (s : State) (r : List Byte) :
    (s.complete r).inA = s.inA := by
  simp only [State.complete]

@[simp] theorem State.complete_inB (s : State) (r : List Byte) :
    (s.complete r).inB = s.inB := by
  simp only [State.complete]

@[simp] theorem State.complete_out (s : State) (r : List Byte) :
    (s.complete r).out = outOf r := by
  simp only [State.complete]

@[simp] theorem State.complete_status (s : State) (r : List Byte) :
    (s.complete r).status = setValid (setOutLen s.status (BitVec.ofNat 5 r.length)) true := by
  simp only [State.complete]

@[simp] theorem State.complete_pending (s : State) (r : List Byte) :
    (s.complete r).pending = s.pending := by
  simp only [State.complete]

@[simp] theorem State.complete_observed (s : State) (r : List Byte) :
    (s.complete r).observed = s.observed := by
  simp only [State.complete]

@[simp] theorem State.complete_device (s : State) (r : List Byte) :
    (s.complete r).device = s.device := by
  simp only [State.complete]

@[simp] theorem State.raise_inA (s : State) (c : FaultCode) :
    (s.raise c).inA = s.inA := by
  simp only [State.raise]

@[simp] theorem State.raise_inB (s : State) (c : FaultCode) :
    (s.raise c).inB = s.inB := by
  simp only [State.raise]

@[simp] theorem State.raise_out (s : State) (c : FaultCode) :
    (s.raise c).out = s.out := by
  simp only [State.raise]

@[simp] theorem State.raise_status (s : State) (c : FaultCode) :
    (s.raise c).status = setOutLen (setValid (setCode (setErr s.status true) c.code) false) 0 := by
  simp only [State.raise]

@[simp] theorem State.raise_pending (s : State) (c : FaultCode) :
    (s.raise c).pending = s.pending := by
  simp only [State.raise]

@[simp] theorem State.raise_observed (s : State) (c : FaultCode) :
    (s.raise c).observed = s.observed := by
  simp only [State.raise]

@[simp] theorem State.raise_device (s : State) (c : FaultCode) :
    (s.raise c).device = s.device := by
  simp only [State.raise]

@[simp] theorem State.hostReset_inA (s : State) :
    s.hostReset.inA = 0 := rfl

@[simp] theorem State.hostReset_inB (s : State) :
    s.hostReset.inB = 0 := rfl

@[simp] theorem State.hostReset_out (s : State) :
    s.hostReset.out = Vector.replicate 18 0 := rfl

@[simp] theorem State.hostReset_status (s : State) :
    s.hostReset.status = 0 := rfl

@[simp] theorem State.hostReset_pending (s : State) :
    s.hostReset.pending = s.pending := rfl

@[simp] theorem State.hostReset_observed (s : State) :
    s.hostReset.observed = s.observed := rfl

@[simp] theorem State.hostReset_device (s : State) :
    s.hostReset.device = s.device := rfl

@[simp] theorem State.devWrite_inA (s : State) (offset : Nat) (b : DevBytes) :
    (s.devWrite offset b).inA = s.inA := by
  simp only [State.devWrite]

@[simp] theorem State.devWrite_inB (s : State) (offset : Nat) (b : DevBytes) :
    (s.devWrite offset b).inB = s.inB := by
  simp only [State.devWrite]

@[simp] theorem State.devWrite_out (s : State) (offset : Nat) (b : DevBytes) :
    (s.devWrite offset b).out = s.out := by
  simp only [State.devWrite]

@[simp] theorem State.devWrite_status (s : State) (offset : Nat) (b : DevBytes) :
    (s.devWrite offset b).status = s.status := by
  simp only [State.devWrite]

@[simp] theorem State.devWrite_pending (s : State) (offset : Nat) (b : DevBytes) :
    (s.devWrite offset b).pending = s.pending := by
  simp only [State.devWrite]

@[simp] theorem State.devWrite_observed (s : State) (offset : Nat) (b : DevBytes) :
    (s.devWrite offset b).observed = s.observed := by
  simp only [State.devWrite]

@[simp] theorem State.devWrite_device (s : State) (offset : Nat) (b : DevBytes) :
    (s.devWrite offset b).device = Memory.writeBytes s.device offset (s.devBytes b) := by
  simp only [State.devWrite]

@[simp] theorem State.setPending_inA (s : State) (p : List HostAction) :
    (s.setPending p).inA = s.inA := rfl

@[simp] theorem State.setPending_inB (s : State) (p : List HostAction) :
    (s.setPending p).inB = s.inB := rfl

@[simp] theorem State.setPending_out (s : State) (p : List HostAction) :
    (s.setPending p).out = s.out := rfl

@[simp] theorem State.setPending_status (s : State) (p : List HostAction) :
    (s.setPending p).status = s.status := rfl

@[simp] theorem State.setPending_pending (s : State) (p : List HostAction) :
    (s.setPending p).pending = p := rfl

@[simp] theorem State.setPending_observed (s : State) (p : List HostAction) :
    (s.setPending p).observed = s.observed := rfl

@[simp] theorem State.setPending_device (s : State) (p : List HostAction) :
    (s.setPending p).device = s.device := rfl

end Sys2Proof.Machine
end

