-- ==== Sys2Proof/Laws/Flags.lean ====
section
/-! SUPPORT. The fields of `STATUS`: writing one field gives that field its value and leaves every other bit alone; and what
completing a command, taking a fault and resetting leave in each field. -/

namespace Sys2Proof.Machine

/-- Every bit of a field write. -/
theorem getLsbD_setField (w : Word32) (lo : Nat) {len : Nat} (v : BitVec len) (i : Nat) (hi : i < 32) :
    (setField w lo v).getLsbD i = if lo ≤ i ∧ i < lo + len then v.getLsbD (i - lo) else w.getLsbD i := by
  by_cases h1 : i < lo <;> by_cases h2 : i - lo < len <;>
    simp [setField, hi, h1, h2] <;> (try split) <;> (try simp_all) <;> (try omega)

/-- Reading the field just written. -/
theorem getField_setField_same (w : Word32) (lo len : Nat) (v : BitVec len) (h : lo + len ≤ 32) :
    getField (setField w lo v) lo len = v := by
  apply BitVec.eq_of_getLsbD_eq
  intro i hi
  rw [getField, BitVec.getLsbD_extractLsb', getLsbD_setField _ _ _ _ (by omega)]
  simp [hi]

/-- Reading a field apart from the one written. -/
theorem getField_setField_other (w : Word32) (lo len lo' len' : Nat) (v : BitVec len') (h : lo + len ≤ 32)
    (hd : lo + len ≤ lo' ∨ lo' + len' ≤ lo) :
    getField (setField w lo' v) lo len = getField w lo len := by
  apply BitVec.eq_of_getLsbD_eq
  intro i hi
  simp only [getField, BitVec.getLsbD_extractLsb', hi, decide_true, Bool.true_and]
  rw [getLsbD_setField _ _ _ _ (by omega), if_neg (by omega)]

/-- A field write stays inside the fields' bits, if the field does. -/
theorem setField_reserved (w : Word32) (lo len : Nat) (v : BitVec len)
    (h : ∀ i, lo ≤ i → i < lo + len → statusFieldMask.getLsbD i = true) :
    setField w lo v &&& ~~~statusFieldMask = w &&& ~~~statusFieldMask := by
  apply BitVec.eq_of_getLsbD_eq
  intro i hi
  by_cases hm : statusFieldMask.getLsbD i = true
  · simp [hm]
  · have : ¬ (lo ≤ i ∧ i < lo + len) := fun hr => hm (h i hr.1 hr.2)
    rw [BitVec.getLsbD_and, BitVec.getLsbD_and, getLsbD_setField _ _ _ _ hi, if_neg this]

@[simp] theorem setValid_reserved (w : Word32) (v : Bool) :
    setValid w v &&& ~~~statusFieldMask = w &&& ~~~statusFieldMask :=
  setField_reserved _ _ _ _ fun i h1 h2 => by obtain rfl : i = 0 := by omega
                                              rfl

@[simp] theorem setErr_reserved (w : Word32) (v : Bool) :
    setErr w v &&& ~~~statusFieldMask = w &&& ~~~statusFieldMask :=
  setField_reserved _ _ _ _ fun i h1 h2 => by obtain rfl : i = 1 := by omega
                                              rfl

@[simp] theorem setCode_reserved (w : Word32) (v : BitVec 3) :
    setCode w v &&& ~~~statusFieldMask = w &&& ~~~statusFieldMask :=
  setField_reserved _ _ _ _ fun i h1 h2 => by interval_cases i <;> rfl

@[simp] theorem setOutLen_reserved (w : Word32) (v : BitVec 5) :
    setOutLen w v &&& ~~~statusFieldMask = w &&& ~~~statusFieldMask :=
  setField_reserved _ _ _ _ fun i h1 h2 => by interval_cases i <;> rfl

/-- A one-bit field and the whole-field reading of it. -/
theorem getLsbD_setValid (w : Word32) (v : Bool) (i : Nat) (hi : i < 32) :
    (setValid w v).getLsbD i = if i = 0 then v else w.getLsbD i := by
  rw [setValid, getLsbD_setField _ _ _ _ hi]
  by_cases h : i = 0
  · subst h; simp
  · rw [if_neg (by omega), if_neg h]

theorem getLsbD_setErr (w : Word32) (v : Bool) (i : Nat) (hi : i < 32) :
    (setErr w v).getLsbD i = if i = 1 then v else w.getLsbD i := by
  rw [setErr, getLsbD_setField _ _ _ _ hi]
  by_cases h : i = 1
  · subst h; simp
  · rw [if_neg (by omega), if_neg h]

theorem getLsbD_setCode_low (w : Word32) (v : BitVec 3) (i : Nat) (hi : i < 2) :
    (setCode w v).getLsbD i = w.getLsbD i := by
  rw [setCode, getLsbD_setField _ _ _ _ (by omega), if_neg (by omega)]

theorem getLsbD_setOutLen_low (w : Word32) (v : BitVec 5) (i : Nat) (hi : i < 8) :
    (setOutLen w v).getLsbD i = w.getLsbD i := by
  rw [setOutLen, getLsbD_setField _ _ _ _ (by omega), if_neg (by omega)]

/-! ### What each state update leaves in each field -/

@[simp] theorem State.complete_valid (s : State) (r : List Byte) : (s.complete r).valid = true := by
  rw [State.valid, State.complete_status, getLsbD_setValid _ _ _ (by omega), if_pos rfl]

@[simp] theorem State.complete_err (s : State) (r : List Byte) : (s.complete r).err = s.err := by
  rw [State.err, State.complete_status, getLsbD_setValid _ _ _ (by omega), if_neg (by omega),
    getLsbD_setOutLen_low _ _ _ (by omega)]
  rfl

@[simp] theorem State.complete_code (s : State) (r : List Byte) : (s.complete r).code = s.code := by
  rw [State.code, State.complete_status, setValid, getField_setField_other _ _ _ _ _ _ (by omega) (by omega), setOutLen,
    getField_setField_other _ _ _ _ _ _ (by omega) (by omega)]
  rfl

@[simp] theorem State.complete_outLen (s : State) (r : List Byte) :
    (s.complete r).outLen = BitVec.ofNat 5 r.length := by
  rw [State.outLen, State.complete_status, setValid, getField_setField_other _ _ _ _ _ _ (by omega) (by omega), setOutLen,
    getField_setField_same _ _ _ _ (by omega)]

@[simp] theorem State.raise_err (s : State) (c : FaultCode) : (s.raise c).err = true := by
  rw [State.err, State.raise_status, getLsbD_setOutLen_low _ _ _ (by omega), getLsbD_setValid _ _ _ (by omega),
    if_neg (by omega), getLsbD_setCode_low _ _ _ (by omega), getLsbD_setErr _ _ _ (by omega), if_pos rfl]

@[simp] theorem State.raise_valid (s : State) (c : FaultCode) : (s.raise c).valid = false := by
  rw [State.valid, State.raise_status, getLsbD_setOutLen_low _ _ _ (by omega), getLsbD_setValid _ _ _ (by omega),
    if_pos rfl]

@[simp] theorem State.raise_code (s : State) (c : FaultCode) : (s.raise c).code = c.code := by
  rw [State.code, State.raise_status, setOutLen, getField_setField_other _ _ _ _ _ _ (by omega) (by omega), setValid,
    getField_setField_other _ _ _ _ _ _ (by omega) (by omega), setCode, getField_setField_same _ _ _ _ (by omega)]

@[simp] theorem State.raise_outLen (s : State) (c : FaultCode) : (s.raise c).outLen = 0 := by
  rw [State.outLen, State.raise_status, setOutLen, getField_setField_same _ _ _ _ (by omega)]

@[simp] theorem State.hostReset_err (s : State) : s.hostReset.err = false := by
  rw [State.err, State.hostReset_status]; decide

@[simp] theorem State.hostReset_valid (s : State) : s.hostReset.valid = false := by
  rw [State.valid, State.hostReset_status]; decide

@[simp] theorem State.hostReset_code (s : State) : s.hostReset.code = 0 := by
  rw [State.code, State.hostReset_status]; decide

@[simp] theorem State.hostReset_outLen (s : State) : s.hostReset.outLen = 0 := by
  rw [State.outLen, State.hostReset_status]; decide

/-! ### The updates that leave `STATUS` alone -/

@[simp] theorem State.setInA_valid (s : State) (v : Word64) : (s.setInA v).valid = s.valid := rfl

@[simp] theorem State.setInA_err (s : State) (v : Word64) : (s.setInA v).err = s.err := rfl

@[simp] theorem State.setInA_code (s : State) (v : Word64) : (s.setInA v).code = s.code := rfl

@[simp] theorem State.setInA_outLen (s : State) (v : Word64) : (s.setInA v).outLen = s.outLen := rfl

@[simp] theorem State.setInB_valid (s : State) (v : Word64) : (s.setInB v).valid = s.valid := rfl

@[simp] theorem State.setInB_err (s : State) (v : Word64) : (s.setInB v).err = s.err := rfl

@[simp] theorem State.setInB_code (s : State) (v : Word64) : (s.setInB v).code = s.code := rfl

@[simp] theorem State.setInB_outLen (s : State) (v : Word64) : (s.setInB v).outLen = s.outLen := rfl

@[simp] theorem State.setPending_valid (s : State) (p : List HostAction) : (s.setPending p).valid = s.valid := rfl

@[simp] theorem State.setPending_err (s : State) (p : List HostAction) : (s.setPending p).err = s.err := rfl

@[simp] theorem State.setPending_code (s : State) (p : List HostAction) : (s.setPending p).code = s.code := rfl

@[simp] theorem State.setPending_outLen (s : State) (p : List HostAction) : (s.setPending p).outLen = s.outLen := rfl

@[simp] theorem State.observe_valid (s : State) (v : ReadValue) : (s.observe v).valid = s.valid := rfl

@[simp] theorem State.observe_err (s : State) (v : ReadValue) : (s.observe v).err = s.err := rfl

@[simp] theorem State.observe_code (s : State) (v : ReadValue) : (s.observe v).code = s.code := rfl

@[simp] theorem State.observe_outLen (s : State) (v : ReadValue) : (s.observe v).outLen = s.outLen := rfl

@[simp] theorem State.devWrite_valid (s : State) (offset : Nat) (b : DevBytes) : (s.devWrite offset b).valid = s.valid := rfl

@[simp] theorem State.devWrite_err (s : State) (offset : Nat) (b : DevBytes) : (s.devWrite offset b).err = s.err := rfl

@[simp] theorem State.devWrite_code (s : State) (offset : Nat) (b : DevBytes) : (s.devWrite offset b).code = s.code := rfl

@[simp] theorem State.devWrite_outLen (s : State) (offset : Nat) (b : DevBytes) : (s.devWrite offset b).outLen = s.outLen := rfl

end Sys2Proof.Machine
end

