-- ==== Sys2Proof/Laws/Ops.lean ====
section
/-! SUPPORT. What the shared operations can do: `OUT` after a result, a command's end, and the operations on the device's
bytes (each keeps their canonical form). -/

namespace Sys2Proof.Machine

/-- Byte `i` of `OUT` for a result. -/
@[simp] theorem outOf_getElem (r : List Byte) (i : Nat) (h : i < 18) : (outOf r)[i] = r.getD i 0 := by
  simp [outOf]

/-- `OUT` for a result that fits: the result, then zeros. -/
theorem outOf_toList (r : List Byte) (h : r.length ≤ 18) :
    (outOf r).toList = r ++ List.replicate (18 - r.length) 0 := by
  apply List.ext_getElem
  · simp; omega
  · intro i h1 h2
    have hi : i < 18 := by simpa using h1
    rw [Vector.getElem_toList, outOf_getElem _ _ hi]
    by_cases hr : i < r.length
    · simp [hr]
    · rw [List.getElem_append_right (by omega)]; simp [hr]

/-- The bytes of a result are the first bytes of `OUT`. -/
theorem outOf_take {r : List Byte} {n : Nat} (h : r.length ≤ 18) (hn : n = r.length) : (outOf r).toList.take n = r := by
  rw [outOf_toList r h, hn, List.take_append_of_le_length (by omega), List.take_of_length_le (by omega)]

/-- A command issued to an unfaulted block: its result is delivered or its fault taken. -/
theorem issue_unfaulted {s : State} (h : s.err = false) (r : Except FaultCode (List Byte)) :
    issue s r = .next (s.conclude r) := by simp [issue, h]

/-- A command issued to a faulted block is ignored. -/
theorem issue_faulted {s : State} (h : s.err = true) (r : Except FaultCode (List Byte)) : issue s r = .next s := by
  simp [issue, h]

/-- All that issuing a command can do. -/
theorem issue_cases {s t : State} {r : Except FaultCode (List Byte)} (h : issue s r = .next t) :
    (s.err = true ∧ t = s) ∨ (s.err = false ∧ ∃ b, r = .ok b ∧ t = s.complete b) ∨
      (s.err = false ∧ ∃ c, r = .error c ∧ t = s.raise c) := by
  cases he : s.err with
  | true => rw [issue_faulted he] at h; cases h; exact .inl ⟨rfl, rfl⟩
  | false =>
    rw [issue_unfaulted he] at h
    cases r with
    | ok b => cases h; exact .inr (.inl ⟨rfl, b, rfl, rfl⟩)
    | error c => cases h; exact .inr (.inr ⟨rfl, c, rfl, rfl⟩)

/-! ### The device's bytes -/

/-- Reading after writing one byte. -/
theorem Memory.read_write (m : Memory) (a : Nat) (v : Byte) (b : Nat) :
    Memory.read (Memory.write m a v) b = if b = a then some v else Memory.read m b := by
  induction m with
  | nil => simp only [Memory.write, Memory.read, eq_comm]
  | cons c rest ih =>
    simp only [Memory.write]
    split
    · simp only [Memory.read, eq_comm (a := a)]
    · split
      · rename_i h; subst h
        simp only [Memory.read, eq_comm (a := c.1)]
        split <;> simp_all
      · simp only [Memory.read, ih]
        split
        · rename_i h1 h2 h3; rw [if_neg (by omega)]
        · rfl

/-- Where the entries of a written list stand. -/
theorem Memory.mem_write {m : Memory} {a : Nat} {v : Byte} {c : Host.Cell} (h : c ∈ Memory.write m a v) :
    c = (a, v) ∨ c ∈ m := by
  induction m with
  | nil => simpa [Memory.write] using h
  | cons d rest ih =>
    simp only [Memory.write] at h
    split at h
    · simpa using h
    · split at h
      · rcases List.mem_cons.1 h with h | h <;> simp [h]
      · rcases List.mem_cons.1 h with h | h
        · simp [h]
        · rcases ih h with h | h <;> simp [h]

/-- Writing one byte keeps the canonical form. -/
theorem Memory.write_wf {m : Memory} (h : Memory.wf m) (a : Nat) (v : Byte) : Memory.wf (Memory.write m a v) := by
  induction m with
  | nil => simp [Memory.write, Memory.wf]
  | cons d rest ih =>
    obtain ⟨hd, hr⟩ := List.pairwise_cons.1 h
    simp only [Memory.write]
    split
    · rename_i hlt
      refine List.pairwise_cons.2 ⟨fun c hc => ?_, h⟩
      rcases List.mem_cons.1 hc with rfl | hc
      · exact hlt
      · exact Nat.lt_trans hlt (hd c hc)
    · split
      · rename_i heq
        exact List.pairwise_cons.2 ⟨fun c hc => by simpa [heq] using hd c hc, hr⟩
      · refine List.pairwise_cons.2 ⟨fun c hc => ?_, ih hr⟩
        rcases Memory.mem_write hc with rfl | hc
        · simp only; omega
        · exact hd c hc

/-- Writing a byte sequence keeps the canonical form. -/
theorem Memory.writeBytes_wf {m : Memory} (h : Memory.wf m) (a : Nat) (vs : List Byte) :
    Memory.wf (Memory.writeBytes m a vs) := by
  induction vs generalizing m a with
  | nil => exact h
  | cons v vs ih => exact ih (Memory.write_wf h a v) (a + 1)

/-- Reading after writing a byte sequence: the sequence's bytes inside it, the old ones outside. -/
theorem Memory.read_writeBytes (m : Memory) (a : Nat) (vs : List Byte) (b : Nat) :
    Memory.read (Memory.writeBytes m a vs) b =
      if a ≤ b ∧ b < a + vs.length then vs[b - a]? else Memory.read m b := by
  induction vs generalizing m a with
  | nil => simp [Memory.writeBytes]
  | cons v vs ih =>
    rw [Memory.writeBytes, ih, Memory.read_write]
    simp only [List.length_cons]
    by_cases h1 : b = a
    · subst h1
      rw [if_neg (by omega), if_pos rfl, if_pos (by omega)]; simp
    · rw [if_neg h1]
      by_cases h2 : a + 1 ≤ b ∧ b < a + 1 + vs.length
      · rw [if_pos h2, if_pos (by omega), show b - a = (b - (a + 1)) + 1 by omega, List.getElem?_cons_succ]
      · rw [if_neg h2, if_neg (by omega)]

/-- The check of a zero-filled first block says what the duty says. -/
theorem Memory.hasZeroFirstBlock_iff (m : Memory) : Memory.hasZeroFirstBlock m = true ↔ Memory.firstBlockZero m := by
  simp only [Memory.hasZeroFirstBlock, List.all_eq_true, List.mem_range, beq_iff_eq, Memory.firstBlockZero]

/-- The canonical form holds after reset. -/
theorem Memory.reset_wf : Memory.wf State.reset.device := List.Pairwise.nil

end Sys2Proof.Machine
end

