-- ==== Sys2Proof/Laws/Functions.lean ====
section
/-! SUPPORT. The pure functions of the two units: exact arithmetic of their fields, the lengths and shapes of their results, and
the outcomes of the precondition check. -/

namespace Sys2Proof.Machine

/-! ### Bit fields as numbers -/

theorem append_toNat {a b : Nat} (x : BitVec a) (y : BitVec b) : (x ++ y).toNat = x.toNat * 2 ^ b + y.toNat := by
  rw [BitVec.toNat_append, ← Nat.shiftLeft_add_eq_or_of_lt y.isLt, Nat.shiftLeft_eq]

theorem extract_toNat {n : Nat} (x : BitVec n) (lo len : Nat) :
    (x.extractLsb' lo len).toNat = x.toNat / 2 ^ lo % 2 ^ len := by
  rw [BitVec.extractLsb'_toNat, Nat.shiftRight_eq_div_pow]

theorem cylOf_eq (n : Nat) : cylOf n = n / 16065 % 1024 := rfl

theorem headOf_eq (n : Nat) : headOf n = n / 63 % 255 % 256 := rfl

theorem secOf_eq (n : Nat) : secOf n = (n % 63 + 1) % 64 := rfl

/-- The block count is the quotient of the sizes (spec/41_record_builder.md R131). -/
theorem maxLba_eq (total bs : Word64) : maxLba total bs = BitVec.ofNat 64 (total.toNat / bs.toNat) := by
  apply BitVec.eq_of_toNat_eq
  have := Nat.div_le_self total.toNat bs.toNat
  simp only [maxLba, BitVec.toNat_udiv, BitVec.toNat_ofNat]
  exact (Nat.mod_eq_of_lt (Nat.lt_of_le_of_lt this total.isLt)).symm

/-! ### Lengths and shapes -/

theorem encodeChs_length (lba : Word64) : (encodeChs lba).length = 3 := rfl

theorem encodeChs_zero : encodeChs 0 = [0x00, 0x01, 0x00] := by decide

theorem le32_zero : le32 0 = [0x00, 0x00, 0x00, 0x00] := by decide

theorem lastChs_shape (n : Word64) : ∃ a b c, lastChs n = [a, b, c] := by
  unfold lastChs; split <;> exact ⟨_, _, _, rfl⟩

theorem lastChs_length (n : Word64) : (lastChs n).length = 3 := by
  obtain ⟨a, b, c, h⟩ := lastChs_shape n; rw [h]; rfl

theorem sectorCount_shape (n : Word64) : ∃ a b c d, sectorCount n = [a, b, c, d] := by
  unfold sectorCount; split <;> exact ⟨_, _, _, _, rfl⟩

theorem sectorCount_length (n : Word64) : (sectorCount n).length = 4 := by
  obtain ⟨a, b, c, d, h⟩ := sectorCount_shape n; rw [h]; rfl

/-- A record, byte by byte. -/
theorem recordOf_shape (n : Word64) :
    ∃ a b c d e f g, lastChs n = [a, b, c] ∧ sectorCount n = [d, e, f, g] ∧
      recordOf n = [0x00, 0x00, 0x01, 0x00, 0x0B, a, b, c, 0x00, 0x00, 0x00, 0x00, d, e, f, g] := by
  obtain ⟨a, b, c, h⟩ := lastChs_shape n
  obtain ⟨d, e, f, g, h'⟩ := sectorCount_shape n
  exact ⟨a, b, c, d, e, f, g, h, h', by rw [recordOf, encodeChs_zero, le32_zero, h, h']; rfl⟩

theorem recordOf_length (n : Word64) : (recordOf n).length = 16 := by
  obtain ⟨a, b, c, d, e, f, g, -, -, h⟩ := recordOf_shape n; rw [h]; rfl

theorem record_length (total bs : Word64) : (record total bs).length = 16 := recordOf_length _

theorem area_length (total bs : Word64) : (area total bs).length = 18 := by
  simp [area, record_length]

/-! ### The precondition check (R141) -/

theorem div_eq_zero_iff_lt {a b : Word64} (h : b ≠ 0) : a.toNat / b.toNat = 0 ↔ a.toNat < b.toNat := by
  have : 0 < b.toNat := by
    rcases Nat.eq_zero_or_pos b.toNat with h0 | h0
    · exact absurd (BitVec.eq_of_toNat_eq (by simpa using h0)) h
    · exact h0
  rw [Nat.div_eq_zero_iff]; omega

theorem buildCheck_bsZero (reject : Bool) {a b : Word64} (h : b = 0) : buildCheck reject a b = some .bsZero := by
  simp [buildCheck, h]

theorem buildCheck_emptyDevice (reject : Bool) {a b : Word64} (h : b ≠ 0) (hl : a.toNat < b.toNat) :
    buildCheck reject a b = some .emptyDevice := by
  unfold buildCheck; rw [if_neg h, if_pos ((div_eq_zero_iff_lt h).2 hl)]

theorem buildCheck_nonmultiple {a b : Word64} (h : b ≠ 0) (hl : b.toNat ≤ a.toNat) (hm : a.toNat % b.toNat ≠ 0) :
    buildCheck true a b = some .nonmultiple := by
  unfold buildCheck; rw [if_neg h, if_neg (by rw [div_eq_zero_iff_lt h]; omega), if_pos ⟨hm, rfl⟩]

theorem buildCheck_none {reject : Bool} {a b : Word64} (h : b ≠ 0) (hl : b.toNat ≤ a.toNat)
    (hm : a.toNat % b.toNat = 0 ∨ reject = false) : buildCheck reject a b = none := by
  unfold buildCheck
  rw [if_neg h, if_neg (by rw [div_eq_zero_iff_lt h]; omega), if_neg]
  rintro ⟨h1, rfl⟩
  rcases hm with hm | hm
  · exact h1 hm
  · cases hm

end Sys2Proof.Machine
end

