-- ==== Sys2Proof/Laws/Exec.lean ====
section
/-! SUPPORT. What a command, a transaction and a step can do, said once. -/

namespace Sys2Proof.Machine

/-- What a command computes on the operands, by command. -/
def resultOf (reject : Bool) (a b : Word64) : Instr → Except FaultCode (List Byte)
  | .chsenc => chsencResult a
  | .chslast => chslastResult a
  | .scnt => scntResult a
  | .build => buildResult reject a b
  | .area => areaResult reject a b

/-- The length of a command's result (spec/10_state.md R29). -/
def resultLength : Instr → Nat
  | .chsenc => 3
  | .chslast => 3
  | .scnt => 4
  | .build => 16
  | .area => 18

/-- Every command is the one operation `issue`, applied to what the command computes from IN_A and IN_B. -/
theorem exec_eq_issue (i : Instr) (s : State) :
    exec i s = issue s (resultOf Config.rejectNonmultiple s.inA s.inB i) := by
  cases i <;> rfl

/-- All that a command can do. -/
theorem exec_cases {i : Instr} {s t : State} (h : exec i s = .next t) :
    (s.err = true ∧ t = s) ∨
      (s.err = false ∧ ∃ b, resultOf Config.rejectNonmultiple s.inA s.inB i = .ok b ∧ t = s.complete b) ∨
      (s.err = false ∧ ∃ c, resultOf Config.rejectNonmultiple s.inA s.inB i = .error c ∧ t = s.raise c) :=
  issue_cases (exec_eq_issue i s ▸ h)

/-- A completed command's result has the length of its command. -/
theorem resultOf_length {reject : Bool} {a b : Word64} {i : Instr} {r : List Byte} (h : resultOf reject a b i = .ok r) :
    r.length = resultLength i := by
  cases i with
  | chsenc => cases h; rfl
  | chslast =>
    simp only [resultOf, chslastResult] at h
    split at h <;> cases h
    exact lastChs_length _
  | scnt => cases h; exact sectorCount_length _
  | build =>
    simp only [resultOf, buildResult, checked] at h
    split at h <;> cases h
    exact record_length _ _
  | area =>
    simp only [resultOf, areaResult, checked] at h
    split at h <;> cases h
    exact area_length _ _

/-- All that a command byte can do. -/
theorem execute_cases (c : Byte) (s : State) :
    (∃ i, decode c = .ok i ∧ execute c s = exec i s) ∨
      (∃ e, decode c = .error e ∧ execute c s = issue s (.error .illegalCmd)) := by
  unfold execute executeIllegal
  cases decode c with
  | ok i => exact .inl ⟨i, rfl, rfl⟩
  | error e => exact .inr ⟨e, rfl, rfl⟩

/-- A step takes the host's next action from the front of what it has to do. -/
theorem step_pending {s : State} {a : HostAction} {rest : List HostAction} (h : s.pending = a :: rest) :
    step s = perform a (s.setPending rest) := by
  simp only [step, hostTurn, h]

/-- A step that answers a next state took some action off the front and performed it. -/
theorem step_next {s t : State} (h : step s = .next t) :
    ∃ a rest, s.pending = a :: rest ∧ perform a (s.setPending rest) = .next t := by
  cases hp : s.pending with
  | nil => simp [step, hostTurn, hp] at h
  | cons a rest => exact ⟨a, rest, rfl, by rw [step_pending hp] at h; exact h⟩

/-- All that executing a byte can do, seen from the next state. -/
theorem execute_next {c : Byte} {s t : State} (h : execute c s = .next t) :
    (s.err = true ∧ t = s) ∨
      (s.err = false ∧ ∃ i r, decode c = .ok i ∧ resultOf Config.rejectNonmultiple s.inA s.inB i = .ok r ∧
        t = s.complete r) ∨
      (s.err = false ∧ ∃ f, t = s.raise f) := by
  rcases execute_cases c s with ⟨i, hi, h'⟩ | ⟨e, -, h'⟩ <;> rw [h'] at h
  · rcases exec_cases h with h | ⟨he, r, hr, h⟩ | ⟨he, f, -, h⟩
    · exact .inl h
    · exact .inr (.inl ⟨he, i, r, hi, hr, h⟩)
    · exact .inr (.inr ⟨he, f, h⟩)
  · rcases issue_cases h with h | ⟨he, r, hr, -⟩ | ⟨he, f, -, h⟩
    · exact .inl h
    · cases hr
    · exact .inr (.inr ⟨he, f, h⟩)

/-- The accesses `locate` finds a register for: the rows of the register map (spec/10_state.md R30). -/
theorem locate_ok {offset width : Nat} {r : Register} (h : locate offset width = .ok r) :
    (r = .cmd ∧ offset = 0x00 ∧ width = 8) ∨ (r = .status ∧ offset = 0x04 ∧ width = 32) ∨
      (r = .inA ∧ offset = 0x08 ∧ width = 64) ∨ (r = .inB ∧ offset = 0x10 ∧ width = 64) ∨
      (∃ i : Fin 18, r = .out i ∧ offset = 0x20 + i.val ∧ width = 8) := by
  unfold locate at h
  split at h
  · cases h
  · rename_i r' hr
    split at h
    · cases h
      unfold registerAt at hr
      split at hr
      · cases hr; simp_all [Register.width]
      split at hr
      · cases hr; simp_all [Register.width]
      split at hr
      · cases hr; simp_all [Register.width]
      split at hr
      · cases hr; simp_all [Register.width]
      split at hr
      · rename_i hw _ _ _ _ hb
        cases hr
        exact .inr (.inr (.inr (.inr ⟨_, rfl, by simp only; omega, hw⟩)))
      · cases hr
    · cases h

/-- The admitted writes. -/
theorem admitWrite_ok {offset width : Nat} {r : Register} (h : admitWrite offset width = .ok r) :
    (r = .cmd ∧ offset = 0x00 ∧ width = 8) ∨ (r = .inA ∧ offset = 0x08 ∧ width = 64) ∨
      (r = .inB ∧ offset = 0x10 ∧ width = 64) := by
  unfold admitWrite at h
  split at h
  · cases h
  · rename_i r' hl
    split at h
    · rename_i hw
      cases h
      rcases locate_ok hl with h | h | h | h | ⟨i, h, -⟩
      · exact .inl h
      · rw [h.1] at hw; cases hw
      · exact .inr (.inl h)
      · exact .inr (.inr h)
      · rw [h] at hw; cases hw
    · cases h

/-- The admitted reads. -/
theorem admitRead_ok {offset width : Nat} {r : Register} (h : admitRead offset width = .ok r) :
    (r = .status ∧ offset = 0x04 ∧ width = 32) ∨ (r = .inA ∧ offset = 0x08 ∧ width = 64) ∨
      (r = .inB ∧ offset = 0x10 ∧ width = 64) ∨ (∃ i : Fin 18, r = .out i ∧ offset = 0x20 + i.val ∧ width = 8) := by
  unfold admitRead at h
  split at h
  · cases h
  · rename_i r' hl
    split at h
    · rename_i hw
      cases h
      rcases locate_ok hl with h | h
      · rw [h.1] at hw; cases hw
      · exact h
    · cases h

/-- An admitted read gives the host the value of the register its offset names. -/
theorem perform_read {offset width : Nat} {r : Register} (h : admitRead offset width = .ok r) (s : State) :
    ∃ v, s.readRegister r = .ok v ∧ perform (.transaction (.read offset width)) s = .next (s.observe v) := by
  simp only [perform, transact, hostRead, h]
  rcases admitRead_ok h with ⟨rfl, -⟩ | ⟨rfl, -⟩ | ⟨rfl, -⟩ | ⟨i, rfl, -⟩ <;> exact ⟨_, rfl, rfl⟩

/-- An admitted read names a register. -/
theorem read_admitted {offset width : Nat} (h : (Transaction.read offset width).admitted = true) :
    ∃ r, admitRead offset width = .ok r := by
  simp only [Transaction.admitted, Transaction.refusal] at h
  cases ha : admitRead offset width with
  | ok r => exact ⟨r, rfl⟩
  | error e => rw [ha] at h; cases h

/-- All that one action of the host can do, if it answers a next state. -/
theorem perform_cases {a : HostAction} {s t : State} (h : perform a s = .next t) :
    (∃ data, a = .transaction (.write 0x00 8 data) ∧ execute (data.extractLsb' 0 8) s = .next t) ∨
      (∃ data, a = .transaction (.write 0x08 64 data) ∧ t = s.setInA data) ∨
      (∃ data, a = .transaction (.write 0x10 64 data) ∧ t = s.setInB data) ∨
      (∃ offset width v, a = .transaction (.read offset width) ∧ t = s.observe v) ∨
      (a = .transaction .reset ∧ t = s.hostReset) ∨
      (∃ offset b, a = .devWrite offset b ∧ t = s.devWrite offset b) := by
  cases a with
  | devWrite offset b => cases h; simp
  | transaction tr =>
    cases tr with
    | reset => cases h; simp
    | read offset width =>
      simp only [perform, transact, hostRead] at h
      split at h
      · cases h
      · split at h
        · rename_i v _
          cases h
          exact .inr (.inr (.inr (.inl ⟨offset, width, v, rfl, rfl⟩)))
        · cases h
    | write offset width data =>
      simp only [perform, transact, hostWrite] at h
      split at h
      · rename_i r hr
        rcases admitWrite_ok hr with ⟨rfl, rfl, rfl⟩ | ⟨rfl, rfl, rfl⟩ | ⟨rfl, rfl, rfl⟩
        · exact .inl ⟨data, rfl, h⟩
        · cases h; exact .inr (.inl ⟨data, rfl, rfl⟩)
        · cases h; exact .inr (.inr (.inl ⟨data, rfl, rfl⟩))
      · cases h

end Sys2Proof.Machine
end

