-- ==== Sys2Proof/Laws/PerInstr.lean ====
section
/-! SUPPORT. Statements made per command, about the command as syntax: its byte has the form of spec/30_encoding.md R70. -/

namespace Sys2Proof.Laws.CommandByte

/-- The command is well-formed, and its byte has `RSV` = 0000 and an `OPC` from 0x1 to 0x5 (R70, R73). -/
def Statement (i : Instr) : Prop :=
  i.wellFormed = true ∧ rsvField (encode i) = 0 ∧ 1 ≤ (opcField (encode i)).toNat ∧ (opcField (encode i)).toNat ≤ 5

theorem chsenc : Statement .chsenc := by unfold Statement; decide

theorem chslast : Statement .chslast := by unfold Statement; decide

theorem scnt : Statement .scnt := by unfold Statement; decide

theorem build : Statement .build := by unfold Statement; decide

theorem area : Statement .area := by unfold Statement; decide

end Sys2Proof.Laws.CommandByte
end

