-- ==== Sys2Proof/Laws/Run.lean ====
section
/-! SUPPORT. Host programs run action by action (spec/70_reset_and_hazards.md R210): which have a run, and runs one after the
other. -/

namespace Sys2Proof.Machine

/-- A program and another after it. -/
theorem runActions_append (p q : List HostAction) (s : State) :
    runActions (p ++ q) s = andThen (runActions p s) (runActions q) := by
  induction p generalizing s with
  | nil => rfl
  | cons a p ih =>
    simp only [List.cons_append, runActions]
    cases perform a s with
    | next t => exact ih t
    | fault f => rfl
    | refused e => rfl

/-- A program and one more action. -/
theorem runActions_concat {p : List HostAction} {s t : State} (h : runActions p s = .next t) (a : HostAction) :
    runActions (p ++ [a]) s = perform a t := by
  rw [runActions_append, h]
  simp only [andThen, runActions]
  cases perform a t <;> rfl

/-- The first refused access of two programs, one after the other. -/
theorem programRefusal_append (p q : List HostAction) :
    programRefusal (p ++ q) = match programRefusal p with
      | some e => some e
      | none => programRefusal q := by
  induction p with
  | nil => rfl
  | cons a p ih =>
    simp only [List.cons_append, programRefusal]
    cases a.refusal with
    | some e => rfl
    | none => exact ih

/-- A program that has a run is well-formed and runs from the reset state. -/
theorem runProgram_next {p : List HostAction} {t : State} (h : runProgram p = .next t) :
    programRefusal p = none ∧ runActions p State.reset = .next t := by
  unfold runProgram at h
  split at h
  · cases h
  · exact ⟨by assumption, h⟩

/-- Reading the bytes of `OUT` one after the other gives the host their values. -/
theorem runActions_readOut (l : List (Fin 18)) (s : State) :
    runActions (actionsOf (l.map .rd8Out)) s =
      .next { s with observed := s.observed ++ l.map fun i => .byte s.out[i] } := by
  have hr : ∀ (i : Fin 18) (s : State),
      perform (.transaction (Stmt.rd8Out i).transaction) s = .next (s.observe (.byte s.out[i])) := by
    intro i s; fin_cases i <;> rfl
  induction l generalizing s with
  | nil => simp [actionsOf, runActions]
  | cons i l ih =>
    have := ih (s.observe (.byte s.out[i]))
    simp only [actionsOf, List.map_cons, runActions, hr] at this ⊢
    rw [this]
    simp [State.observe]

/-- What AREA comes to decides the flow's first part: the operands are written, AREA is executed, and the host reads
`STATUS`. -/
theorem runActions_issueFlow {total bs : Word64} {s u : State}
    (h : exec .area ((s.setInA total).setInB bs) = .next u) :
    runActions (issueFlow total bs) s = .next (u.observe (.status u.statusRead)) := by
  have hi : issueFlow total bs = [.transaction (.write 0x08 64 total), .transaction (.write 0x10 64 bs),
      .transaction (.write 0x00 8 5), .transaction (.read 0x04 32)] := rfl
  have e1 : ∀ s, perform (.transaction (.write 0x08 64 total)) s = .next (s.setInA total) := fun _ => rfl
  have e2 : ∀ s, perform (.transaction (.write 0x10 64 bs)) s = .next (s.setInB bs) := fun _ => rfl
  have e3 : ∀ s, perform (.transaction (.write 0x00 8 5)) s = exec .area s := fun _ => rfl
  have e4 : ∀ s, perform (.transaction (.read 0x04 32)) s = .next (s.observe (.status s.statusRead)) := fun _ => rfl
  simp only [hi, runActions, e1, e2, e3, e4, h]

/-- On a zero-filled first block the host makes the two writes of an AREA result's placement. -/
theorem placeOnZeroFilledBlock_of_zero {s : State} (h : Memory.firstBlockZero s.device) :
    placeOnZeroFilledBlock s = .next s.placeArea := by
  rw [placeOnZeroFilledBlock, if_pos ((Memory.hasZeroFirstBlock_iff _).2 h)]; rfl

/-- On any other first block it makes none. -/
theorem placeOnZeroFilledBlock_of_not_zero {s : State} (h : ¬ Memory.firstBlockZero s.device) :
    placeOnZeroFilledBlock s = .next s := by
  rw [placeOnZeroFilledBlock, if_neg (by rwa [Memory.hasZeroFirstBlock_iff])]

/-- The flow where the check of step 3 fails on a fault: the host has read `STATUS` and stops. -/
theorem hostFlow_faulted {total bs : Word64} {s u : State} (h : exec .area ((s.setInA total).setInB bs) = .next u)
    (he : u.err = true) : hostFlow total bs s = .next (u.observe (.status u.statusRead)) := by
  have hp : (u.observe (.status u.statusRead)).placementAllowed = false := by simp [State.placementAllowed, he]
  simp [hostFlow, runActions_issueFlow h, andThen, hp]

/-- The flow where the check succeeds: the host reads all of `OUT` and comes to step 5. -/
theorem hostFlow_completed {total bs : Word64} {s u : State} (h : exec .area ((s.setInA total).setInB bs) = .next u)
    (he : u.err = false) (hv : u.valid = true) :
    hostFlow total bs s = placeOnZeroFilledBlock { u with
      observed := u.observed ++ [.status u.statusRead] ++ (List.finRange 18).map fun i => .byte u.out[i] } := by
  have hp : (u.observe (.status u.statusRead)).placementAllowed = true := by simp [State.placementAllowed, he, hv]
  simp only [hostFlow, runActions_issueFlow h, andThen, hp, if_true, resultFlow, runActions_readOut]
  rfl

end Sys2Proof.Machine
end

