-- ==== Sys2Proof/Laws/Safety.lean ====
section
/-! SUPPORT. Lemmas for the promises of Safety: the frame of completing and of faulting, when two `STATUS` words are equal, and
that the invariant depends on `STATUS`, `OUT` and the device alone. -/

namespace Sys2Proof.Machine

theorem commandFrame_complete (s : State) (r : List Byte) : CommandFrame s (s.complete r) :=
  ⟨by simp, by simp, by simp, by simp, by simp, by simp⟩

theorem commandFrame_raise (s : State) (c : FaultCode) : CommandFrame s (s.raise c) :=
  ⟨by simp, by simp, by simp, by simp, by simp, by simp⟩

/-- What completing a command with a result that fits leaves. -/
theorem completedWith_complete (s : State) (r : List Byte) (h : r.length ≤ 18) : CompletedWith s (s.complete r) r := by
  refine ⟨by simpa using outOf_toList r h, ?_, by simp, by simp, by simp, commandFrame_complete s r⟩
  rw [State.complete_outLen, BitVec.toNat_ofNat]; omega

/-- Two `STATUS` words with the same reserved bits and the same fields are equal. -/
theorem status_ext {a b : Word32} (h0 : a &&& ~~~statusFieldMask = b &&& ~~~statusFieldMask)
    (h1 : a.getLsbD 0 = b.getLsbD 0) (h2 : a.getLsbD 1 = b.getLsbD 1) (h3 : getField a 2 3 = getField b 2 3)
    (h4 : getField a 8 5 = getField b 8 5) : a = b := by
  apply BitVec.eq_of_getLsbD_eq
  intro i hi
  by_cases hm : statusFieldMask.getLsbD i = true
  · have e3 := fun k => congrArg (fun v => v.getLsbD k) h3
    have e4 := fun k => congrArg (fun v => v.getLsbD k) h4
    simp only [getField, BitVec.getLsbD_extractLsb'] at e3 e4
    have hi' : i = 0 ∨ i = 1 ∨ i = 2 ∨ i = 3 ∨ i = 4 ∨ i = 8 ∨ i = 9 ∨ i = 10 ∨ i = 11 ∨ i = 12 := by
      by_contra hc
      interval_cases i <;> first | omega | exact absurd hm (by decide)
    rcases hi' with rfl | rfl | rfl | rfl | rfl | rfl | rfl | rfl | rfl | rfl
    · exact h1
    · exact h2
    · simpa using e3 0
    · simpa using e3 1
    · simpa using e3 2
    · simpa using e4 0
    · simpa using e4 1
    · simpa using e4 2
    · simpa using e4 3
    · simpa using e4 4
  · have := congrArg (fun v => v.getLsbD i) h0
    have hm' : statusFieldMask.getLsbD i = false := by simpa using hm
    rw [BitVec.getLsbD_and, BitVec.getLsbD_and, BitVec.getLsbD_not, hm'] at this
    simpa [hi] using this

/-- The host's zero-fill leaves the zero-filled first block. -/
theorem firstBlockZero_zeroFill {s t : State} (h : perform zeroFillFirstBlock s = .next t) :
    Memory.firstBlockZero t.device := by
  cases h
  intro a ha
  have hb : s.devBytes (.literal (List.replicate 512 0)) = List.replicate 512 0 := rfl
  rw [State.devWrite_device, Memory.read_writeBytes, hb, List.length_replicate, if_pos (by omega),
    List.getElem?_replicate, if_pos (by omega)]

/-- A state with the `STATUS` and `OUT` of one that meets the invariant, and a device in canonical form, meets it too. -/
theorem State.Inv_congr {s t : State} (h : s.Inv) (hs : t.status = s.status) (ho : t.out = s.out)
    (hd : Memory.wf t.device) : t.Inv := by
  obtain ⟨a, b, st, o, d, e, f⟩ := t
  simp only at hs ho hd
  subst hs ho
  exact ⟨h.1, h.2.1, h.2.2.1, hd⟩

end Sys2Proof.Machine
end

