-- ==== Sys2Proof/Laws/Text.lean ====
section
/-! SUPPORT. The written form of transactions (spec/30_encoding.md R81) and the text of programs (R80): digits, words, tokens
and lines. -/

namespace Sys2Proof.Machine

theorem hexDigitValue_hexDigit : ∀ d : Fin 16, hexDigitValue (hexDigit d) = some d.val := by decide

theorem hexDigit_ne_space : ∀ d : Fin 16, hexDigit d ≠ ' ' := by decide

/-- Reading digits left to right. -/
theorem readDigits_append (base : Nat) (value : Char → Option Nat) (acc : Nat) (xs ys : List Char) :
    readDigits base value acc (xs ++ ys) =
      match readDigits base value acc xs with
      | some n => readDigits base value n ys
      | none => none := by
  induction xs generalizing acc with
  | nil => rfl
  | cons x xs ih =>
    simp only [List.cons_append, readDigits]
    cases value x with
    | none => rfl
    | some d => exact ih _

/-- `count` digits hold a number modulo `16 ^ count`. -/
theorem readDigits_hexDigits (count n : Nat) :
    readDigits 16 hexDigitValue 0 (hexDigits count n) = some (n % 16 ^ count) := by
  induction count generalizing n with
  | zero => simp [hexDigits, readDigits, Nat.mod_one]
  | succ k ih =>
    rw [hexDigits, readDigits_append, ih]
    simp only [readDigits, hexDigitValue_hexDigit]
    rw [Nat.pow_succ, Nat.mul_comm (16 ^ k) 16, Nat.mod_mul]
    congr 1; omega

theorem hexDigits_ne_space (count n : Nat) : ∀ c ∈ hexDigits count n, c ≠ ' ' := by
  induction count generalizing n with
  | zero => simp [hexDigits]
  | succ k ih =>
    intro c hc
    rw [hexDigits, List.mem_append] at hc
    rcases hc with hc | hc
    · exact ih _ c hc
    · rw [List.mem_singleton] at hc; subst hc; exact hexDigit_ne_space _

/-- A word ends at the next space. -/
theorem splitSpaces_word (w : List Char) (hw : ∀ c ∈ w, c ≠ ' ') (acc rest : List Char) :
    splitSpaces (w ++ ' ' :: rest) acc = (acc ++ w) :: splitSpaces rest [] := by
  induction w generalizing acc with
  | nil => simp [splitSpaces]
  | cons c w ih =>
    simp only [List.cons_append, splitSpaces]
    rw [if_neg (hw c (by simp)), ih (fun c hc => hw c (by simp [hc]))]
    simp

/-- The last word ends with the line. -/
theorem splitSpaces_last (w : List Char) (hw : ∀ c ∈ w, c ≠ ' ') (acc : List Char) : splitSpaces w acc = [acc ++ w] := by
  induction w generalizing acc with
  | nil => simp [splitSpaces]
  | cons c w ih =>
    simp only [splitSpaces]
    rw [if_neg (hw c (by simp)), ih (fun c hc => hw c (by simp [hc]))]
    simp

/-! ### Numbers -/

theorem decDigitValue_digitChar : ∀ d : Fin 10, decDigitValue (Nat.digitChar d.val) = some d.val := by decide

theorem decText_ne_nil (n : Nat) : decText n ≠ [] := Nat.toDigits_ne_nil

/-- A number written in decimal is read back, whatever stands before it. -/
theorem readDigits_decText (n : Nat) : readDigits 10 decDigitValue 0 (decText n) = some n := by
  induction n using Nat.strongRecOn with
  | _ n ih =>
    unfold decText
    rcases Nat.lt_or_ge n 10 with h | h
    · rw [Nat.toDigits_of_lt_base h]
      simp only [readDigits, decDigitValue_digitChar ⟨n, h⟩]
      simp
    · rw [Nat.toDigits_of_base_le (by omega) h, readDigits_append]
      have := ih (n / 10) (by omega)
      unfold decText at this
      rw [this]
      simp only [readDigits, decDigitValue_digitChar ⟨n % 10, by omega⟩]
      congr 1; omega

theorem readDec_decText (n : Nat) : readDec (decText n) = some n := by
  rw [readDec, if_neg (decText_ne_nil n), readDigits_decText]

/-- The characters of a decimal number are digits. -/
theorem isDigit_of_mem_decText {n : Nat} {c : Char} (h : c ∈ decText n) : c.isDigit = true :=
  Nat.isDigit_of_mem_toDigits (b := 10) (by omega) (by omega) h

theorem readHex_hexDigits {count n : Nat} (h : n < 16 ^ (count + 1)) : readHex (hexDigits (count + 1) n) = some n := by
  rw [readHex, if_neg (by simp [hexDigits]), readDigits_hexDigits, Nat.mod_eq_of_lt h]

/-- A number in decimal is not taken for one in 0x-hex. -/
theorem readNumber_decText (n : Nat) : readNumber (decText n) = some n := by
  have hx : 'x' ∉ decText n := fun h => absurd (isDigit_of_mem_decText h) (by decide)
  unfold readNumber
  split
  · rename_i h; rw [h] at hx; simp at hx
  · exact readDec_decText n

/-- An immediate in decimal is read as its number, below the bound. -/
theorem readImm_decText (bound n : Nat) : readImm bound (decText n) = if n < bound then some n else none := by
  simp only [readImm, readNumber_decText]

/-- An immediate in 0x-hex is read as its number, below the bound. -/
theorem readImm_hexText {bound count n : Nat} (h : n < 16 ^ (count + 1)) :
    readImm bound (hexText (count + 1) n) = if n < bound then some n else none := by
  simp only [readImm, hexText, readNumber, readHex_hexDigits h]

/-- A word that begins with a digit is no mnemonic. -/
theorem readMnemonic_of_digit {c : Char} (h : c.isDigit = true) (cs : List Char) : readMnemonic (c :: cs) = none := by
  have hne : ∀ d : Char, d.isDigit = false → ∀ ds, c :: cs ≠ d :: ds := by
    intro d hd ds he
    rw [(List.cons.inj he).1, hd] at h; cases h
  have h1 : c :: cs ≠ "CHSENC".toList := hne 'C' rfl _
  have h2 : c :: cs ≠ "CHSLAST".toList := hne 'C' rfl _
  have h3 : c :: cs ≠ "SCNT".toList := hne 'S' rfl _
  have h4 : c :: cs ≠ "BUILD".toList := hne 'B' rfl _
  have h5 : c :: cs ≠ "AREA".toList := hne 'A' rfl _
  rw [readMnemonic, if_neg h1, if_neg h2, if_neg h3, if_neg h4, if_neg h5]

theorem readMnemonic_decText (n : Nat) : readMnemonic (decText n) = none := by
  cases h : decText n with
  | nil => exact absurd h (decText_ne_nil n)
  | cons c cs => exact readMnemonic_of_digit (isDigit_of_mem_decText (n := n) (by simp [h])) cs

theorem readMnemonic_hexText (count n : Nat) : readMnemonic (hexText count n) = none := readMnemonic_of_digit rfl _

/-! ### The line of each statement, by form (use these: unfolding `Stmt.text` is slow) -/

theorem Stmt.text_wr64 (r : Reg64) (v : Word64) :
    (SourceStmt.plain (.wr64 r v)).text = "WR64 ".toList ++ r.name ++ ", ".toList ++ decText v.toNat := rfl

theorem Stmt.text_rd64 (r : Reg64) : (SourceStmt.plain (.rd64 r)).text = "RD64 ".toList ++ r.name := rfl

theorem Stmt.text_rd32Status : (SourceStmt.plain .rd32Status).text = "RD32 STATUS".toList := rfl

theorem Stmt.text_rd8Out (i : Fin 18) :
    (SourceStmt.plain (.rd8Out i)).text = "RD8 OUT[".toList ++ (decText i.val ++ [']']) := rfl

theorem Stmt.text_cmd (i : Instr) : (SourceStmt.plain (.cmd i)).text = "CMD ".toList ++ mnemonicName i := rfl

theorem Stmt.text_cmdByte (c : Byte) : (SourceStmt.plain (.cmdByte c)).text = "CMD ".toList ++ decText c.toNat := rfl

theorem Stmt.text_reset : (SourceStmt.plain .reset).text = "RESET".toList := rfl

/-! ### Tokens and lines -/

/-- A character that stands within a word: no blank, no mark, no comment, no end of line. -/
def isWordChar (c : Char) : Bool := !(isBlank c || isMark c || c == ';' || c == '\n')

theorem isWordChar_decText (n : Nat) : ∀ c ∈ decText n, isWordChar c = true := by
  intro c h
  have hd := isDigit_of_mem_decText h
  simp only [Char.isDigit, Bool.and_eq_true, decide_eq_true_eq] at hd
  simp only [isWordChar, isBlank, isMark, Bool.not_eq_true', Bool.or_eq_false_iff, beq_eq_false_iff_ne, ne_eq]
  refine ⟨⟨⟨⟨⟨?_, ?_⟩, ?_⟩, ⟨?_, ?_⟩, ?_⟩, ?_⟩, ?_⟩ <;> rintro rfl <;> exact absurd hd (by decide)

/-- Word characters join the word being read. -/
theorem tokens_word {w : List Char} (hw : ∀ c ∈ w, isWordChar c = true) (acc rest : List Char) :
    tokens (w ++ rest) acc = tokens rest (acc ++ w) := by
  induction w generalizing acc with
  | nil => simp
  | cons c w ih =>
    have hc := hw c (by simp)
    simp only [isWordChar, Bool.not_eq_true', Bool.or_eq_false_iff, beq_eq_false_iff_ne, ne_eq] at hc
    rw [List.cons_append, tokens, if_neg hc.1.2, if_neg (by simp [hc.1.1.1]), if_neg (by simp [hc.1.1.2]),
      ih (fun c h => hw c (by simp [h]))]
    simp

/-- A blank ends a word. -/
theorem tokens_blank {w : List Char} (hw : ∀ c ∈ w, isWordChar c = true) (rest : List Char) :
    tokens (w ++ ' ' :: rest) [] = flushWord w ++ tokens rest [] := by
  rw [tokens_word hw]; rfl

/-- A mark ends a word and is a token of its own. -/
theorem tokens_mark {w : List Char} (hw : ∀ c ∈ w, isWordChar c = true) {m : Char} (hm : isMark m = true)
    (rest : List Char) : tokens (w ++ m :: rest) [] = flushWord w ++ [m] :: tokens rest [] := by
  rw [tokens_word hw, List.nil_append, tokens, if_neg (by rintro rfl; cases hm), if_neg, if_pos hm]
  simp only [isMark, isBlank, Bool.or_eq_true, beq_iff_eq] at hm ⊢
  rcases hm with (rfl | rfl) | rfl <;> decide

/-- The end of the line ends a word. -/
theorem tokens_end {w : List Char} (hw : ∀ c ∈ w, isWordChar c = true) : tokens w [] = flushWord w := by
  have := tokens_word hw [] []
  simpa [tokens] using this

theorem flushWord_of_ne_nil {w : List Char} (h : w ≠ []) : flushWord w = [w] := by simp [flushWord, h]

/-- The end of a line is none of its characters. -/
theorem linesOf_line {l : List Char} (h : '\n' ∉ l) (acc rest : List Char) :
    linesOf (l ++ '\n' :: rest) acc = (acc ++ l) :: linesOf rest [] := by
  induction l generalizing acc with
  | nil => simp [linesOf]
  | cons c l ih =>
    rw [List.cons_append, linesOf, if_neg (by rintro rfl; simp at h), ih (fun hc => h (by simp [hc]))]
    simp

end Sys2Proof.Machine
end

