-- ==== Sys2Proof/Tests/Slice0.lean ====
section
/-! SUPPORT. The model's own tests. Expected values come from spec/95_test_vectors.md or from the rule named; the second part
gives, for each statement with hypotheses, concrete states that meet them. -/

namespace Sys2Proof.Tests

open Sys2Proof.Machine

/-- An unfaulted state with the given operands. -/
def ops (a b : Word64) : State := { State.reset with inA := a, inB := b }

/-- A faulted state: BS_ZERO was taken (95_test_vectors.md T-F-3). -/
def faulted : State := (ops 4096 0).raise .bsZero

/-- A state whose host has one transaction to do. -/
def withNext (s : State) (t : Transaction) : State := s.setPending [.transaction t]

/-- The bytes of `OUT` and the word read from `STATUS` after an outcome, if it is a next state. -/
def seen : Host.Outcome State Fault Refusal → Option (List Byte × Word32)
  | .next s => some (s.out.toList, s.statusRead)
  | .fault _ => none
  | .refused _ => none

/-- What a command byte leaves, issued as the next step. -/
def issued (s : State) (w : Nat) : Option (List Byte × Word32) := seen (step (s.withFetchWord 8 w))

/-! ### Well-formedness: an ill-formed term for each check -/

theorem test_wellFormed_commands : Instr.wellFormed .chsenc = true ∧ Instr.wellFormed .area = true := by decide

/-- R33: an offset without a register, a misaligned one, a wrong width, a read of CMD, a write of STATUS and of OUT. -/
theorem test_wellFormed_refuses :
    (Transaction.read 0x32 8).refusal = some .noRegister ∧ (Transaction.read 0x09 64).refusal = some .noRegister ∧
    (Transaction.write 0x40 8 0).refusal = some .noRegister ∧ (Transaction.read 0x08 32).refusal = some .wrongWidth ∧
    (Transaction.read 0x00 8).refusal = some .notReadable ∧ (Transaction.write 0x04 32 0).refusal = some .notWritable ∧
    (Transaction.write 0x20 8 0).refusal = some .notWritable := by decide

theorem test_wellFormed_program :
    programRefusal [.transaction .reset, .transaction (.read 0x00 8), .transaction (.read 0x01 8)] = some .notReadable := by
  decide

/-! ### The encoding, written out from R70 and R73 -/

theorem test_decode_commands :
    decode 0b00000001 = .ok .chsenc ∧ decode 0b00000010 = .ok .chslast ∧ decode 0b00000011 = .ok .scnt ∧
    decode 0b00000100 = .ok .build ∧ decode 0b00000101 = .ok .area := by decide

/-- T-F-0, T-F-1, T-F-2, and the byte of P4. -/
theorem test_decode_illegal :
    decode 0x00 = .error .unassignedOpc ∧ decode 0x06 = .error .unassignedOpc ∧ decode 0x0F = .error .unassignedOpc ∧
    decode 0x81 = .error .reservedNotZero ∧ decode 0x13 = .error .reservedNotZero ∧
    decode 0xFF = .error .reservedNotZero := by decide

theorem test_encode_bytes :
    encode .chsenc = 0x01 ∧ encode .chslast = 0x02 ∧ encode .scnt = 0x03 ∧ encode .build = 0x04 ∧
    encode .area = 0x05 := by decide

/-! ### One step of each command -/

/-- T-ENC-9: a cylinder-high bit. -/
theorem test_chsenc_high_cylinder :
    issued (ops 8225280 0) 0x01 = some ([0x00, 0x81, 0x00] ++ List.replicate 15 0, 0x00000301) := by decide

/-- T-ENC-18: the largest LBA. -/
theorem test_chsenc_wraps :
    issued (ops 18446744073709551615 0) 0x01 = some ([0xBE, 0x90, 0xAE] ++ List.replicate 15 0, 0x00000301) := by decide

/-- T-LAST-4: just below the ceiling. -/
theorem test_chslast_below_ceiling :
    issued (ops 16450558 0) 0x02 = some ([0xFE, 0xFD, 0xFF] ++ List.replicate 15 0, 0x00000301) := by decide

/-- T-LAST-9: a count of 0. -/
theorem test_chslast_empty : issued (ops 0 0) 0x02 = some (List.replicate 18 0, 0x0000000E) := by decide

/-- T-SCNT-7: no wrap at 2^32. -/
theorem test_scnt_saturates :
    issued (ops 4294967296 0) 0x03 = some ([0xFF, 0xFF, 0xFF, 0xFF] ++ List.replicate 14 0, 0x00000401) := by decide

/-- T-SCNT-2: byte order. -/
theorem test_scnt_little_endian :
    issued (ops 305419896 0) 0x03 = some ([0x78, 0x56, 0x34, 0x12] ++ List.replicate 14 0, 0x00000401) := by decide

/-- T-BLD-3: a cylinder bit 8, and a count of four different bytes. -/
theorem test_build_record :
    issued (ops 4211343360 512) 0x04 = some ([0x00, 0x00, 0x01, 0x00, 0x0B, 0xFE, 0x7F, 0xFF, 0x00, 0x00, 0x00, 0x00,
      0x00, 0x82, 0x7D, 0x00, 0x00, 0x00], 0x00001001) := by decide

/-- T-BLD-2 and T-F-6: a non-multiple under each value of the open parameter. -/
theorem test_build_nonmultiple :
    seen (execBuildWith false (ops 1000 512)) = some ([0x00, 0x00, 0x01, 0x00, 0x0B, 0x00, 0x01, 0x00, 0x00, 0x00, 0x00,
      0x00, 0x01, 0x00, 0x00, 0x00, 0x00, 0x00], 0x00001001) ∧
    seen (execBuildWith true (ops 1000 512)) = some (List.replicate 18 0, 0x00000012) := by decide

/-- T-AREA-1. -/
theorem test_area_signature :
    issued (ops 8589934592 512) 0x05 = some ([0x00, 0x00, 0x01, 0x00, 0x0B, 0xFE, 0xFF, 0xFF, 0x00, 0x00, 0x00, 0x00,
      0x00, 0x00, 0x00, 0x01, 0x55, 0xAA], 0x00001201) := by decide

/-- T-F-5: BS_ZERO wins over EMPTY_DEVICE. -/
theorem test_area_priority : issued (ops 0 0) 0x05 = some (List.replicate 18 0, 0x0000000A) := by decide

/-! ### Faults, transactions, text -/

/-- T-F-2, T-F-7, T-F-8. -/
theorem test_illegal_and_ignored :
    issued (ops 0 0) 0x81 = some (List.replicate 18 0, 0x00000006) ∧
    issued faulted 0x01 = some (List.replicate 18 0, 0x0000000A) ∧
    issued faulted 0xFF = some (List.replicate 18 0, 0x0000000A) := by decide

/-- T-F-9. -/
theorem test_reset_leaves_fault : seen (step (withNext faulted .reset)) = some (List.replicate 18 0, 0x00000000) := by decide

/-- A line of P5 and one of P1, with a comment (R80, R82). -/
theorem test_parse_program :
    parseProgram "RUN BUILD, 1000, 512 ; P5\nRD8 OUT[17]".toList =
      some [.wr64 .inA 1000, .wr64 .inB 512, .cmd .build, .rd8Out 17] := by decide

/-- The written program of R80 and R82's grammar, and that an n of RDOUT is decimal (log entry 12). -/
theorem test_program_text :
    programText [.plain (.wr64 .inA 16194), .plain (.cmd .chsenc), .rdOut 3] = "WR64 IN_A, 16194\nCMD CHSENC\nRDOUT 3\n".toList ∧
    parseTokens ["RDOUT".toList, "0x3".toList] = none := by decide

/-- R204: after a fault the host has read STATUS and nothing else. -/
theorem test_flow_stops_on_fault :
    (match hostFlow 4096 0 State.reset with
      | .next t => some (t.observed, t.device)
      | _ => none) = some ([.status 0x0000000A], []) := by decide

/-- The encoding column of P1 (R81). -/
theorem test_render_write :
    (Stmt.wr64 .inA 16194).transaction.render = "W 08 64 0000000000003F42".toList := by decide

/-- V11: the offsets of the device writes, and that an unwritten byte has no known value. -/
theorem test_device_write :
    Memory.read (Memory.writeBytes [] 510 [0x55, 0xAA]) 511 = some 0xAA ∧
    Memory.read (Memory.writeBytes [] 510 [0x55, 0xAA]) 509 = none := by decide

/-- Writing a byte out of order keeps the canonical form. -/
theorem test_device_canonical : Memory.write [(446, 1)] 3 7 = [(3, 7), (446, 1)] := by decide

/-! ### Witnesses: states that meet the hypotheses of the statements -/

theorem test_hyp_illegal_bytes :
    (withNext (ops 1 0) (.write 0x00 8 0)).pending = [.transaction (.write 0x00 8 0)] ∧
    (withNext (ops 1 0) (.write 0x00 8 0)).err = false ∧ (0 : Word64).toNat % 256 = 0 ∧ 6 ≤ (6 : Word64).toNat % 256 ∧
    6 ≤ (255 : Word64).toNat % 256 ∧ decode 0x06 ≠ .ok .area ∧ decode 0x05 = .ok .area := by decide

theorem test_hyp_step_runs :
    (withNext (ops 1 0) (.write 0x00 8 0x105)).pending = [.transaction (.write 0x00 8 0x105)] ∧
    decode ((0x105 : Word64).extractLsb' 0 8) = .ok .area ∧ decodeTableWord 8 1 = some .chsenc ∧
    decodeTableWord 8 5 = some .area := by decide

theorem test_hyp_execute :
    (withNext faulted (.write 0x00 8 1)).err = true ∧ (withNext (ops 1 0) (.write 0x00 8 0x10)).err = false ∧
    (0x10 : Word64).toNat / 16 % 16 ≠ 0 ∧ (5 : Word64).toNat / 16 % 16 = 0 ∧ (1 : Word64).toNat % 16 = 1 ∧
    (5 : Word64).toNat % 16 = 5 ∧ 6 ≤ (15 : Word64).toNat % 16 ∧ (15 : Word64).toNat / 16 % 16 = 0 := by decide

theorem test_hyp_transactions :
    (withNext (ops 1 0) (.write 0x08 64 7)).pending = [.transaction (.write 0x08 64 7)] ∧
    (withNext (ops 1 0) (.write 0x10 64 7)).pending = [.transaction (.write 0x10 64 7)] ∧
    (withNext (ops 1 0) (.read 0x04 32)).pending = [.transaction (.read 0x04 32)] ∧
    (withNext (ops 1 0) (.read (0x20 + (17 : Fin 18).val) 8)).pending = [.transaction (.read 0x31 8)] ∧
    (withNext faulted .reset).pending = [.transaction .reset] := by decide

/-- The edges of the register map: 0x20 and 0x31 are admitted, 0x1F and 0x32 are not. -/
theorem test_hyp_accesses :
    (Transaction.read 0x20 8).admitted = true ∧ (Transaction.read 0x31 8).admitted = true ∧
    (Transaction.read 0x1F 8).admitted = false ∧ (Transaction.read 0x32 8).admitted = false ∧
    (Transaction.read 0x31 16).admitted = false ∧ (Transaction.write 0x00 8 1).admitted = true ∧
    (HostAction.transaction (.read 0x00 8)).admitted = false := by decide

theorem test_hyp_lba_and_counts :
    16450560 ≤ (16450560 : Word64).toNat ∧ 1 ≤ (1 : Word64).toNat ∧ (16450558 : Word64).toNat < 16450559 ∧
    16450559 ≤ (16450559 : Word64).toNat ∧ (4294967294 : Word64).toNat < 4294967295 ∧
    4294967295 ≤ (4294967295 : Word64).toNat ∧ (1 : Word64) ≠ 0 ∧ (1 : Word64).toNat ≤ (1 : Word64).toNat := by decide

/-- BUILD and AREA: accepted, bs = 0, total < bs, and a non-multiple. -/
theorem test_hyp_build_and_area :
    (ops 512 512).err = false ∧ (ops 512 512).inB ≠ 0 ∧ (ops 512 512).inB.toNat ≤ (ops 512 512).inA.toNat ∧
    (ops 512 512).inA.toNat % (ops 512 512).inB.toNat = 0 ∧
    (ops 4096 0).err = false ∧ (ops 4096 0).inB = 0 ∧
    (ops 511 512).err = false ∧ (ops 511 512).inB ≠ 0 ∧ (ops 511 512).inA.toNat < (ops 511 512).inB.toNat ∧
    (ops 513 512).err = false ∧ (ops 513 512).inB ≠ 0 ∧ (ops 513 512).inB.toNat ≤ (ops 513 512).inA.toNat ∧
    (ops 513 512).inA.toNat % (ops 513 512).inB.toNat ≠ 0 := by decide

theorem test_hyp_one_operand_commands :
    (ops 0 0).err = false ∧ (ops 0 0).inA = 0 ∧ (ops 1 0).err = false ∧ (ops 1 0).inA ≠ 0 ∧ faulted.err = true ∧
    16450559 ≤ (ops 16450559 0).inA.toNat ∧ 4294967295 ≤ (ops 4294967295 0).inA.toNat ∧
    16450560 ≤ (ops 16450560 0).inA.toNat ∧
    16450559 ≤ (ops 8589934592 512).inA.toNat / (ops 8589934592 512).inB.toNat ∧
    (ops 8589934592 512).inA.toNat / (ops 8589934592 512).inB.toNat < 4294967295 ∧
    (ops 8589934592 512).inA.toNat % (ops 8589934592 512).inB.toNat = 0 ∧ (ops 8589934592 512).inB ≠ 0 ∧
    4294967295 ≤ (ops 4294967295 1).inA.toNat / (ops 4294967295 1).inB.toNat ∧
    (ops 4294967295 1).inA.toNat % (ops 4294967295 1).inB.toNat = 0 ∧ (ops 4294967295 1).inB ≠ 0 := by decide

/-- R175: a state for each branch of the priority chain; the last is a count of 1 for CHSLAST. -/
theorem test_hyp_priority :
    (withNext faulted (.write 0x00 8 0)).err = true ∧ ¬ ((4 : Word64).toNat % 256 = 0 ∨ 6 ≤ (4 : Word64).toNat % 256) ∧
    (4 ≤ (4 : Word64).toNat % 256 ∧ (ops 0 0).inB = 0) ∧ (ops 1 2).inA.toNat < (ops 1 2).inB.toNat ∧ (ops 1 2).inB ≠ 0 ∧
    (ops 3 2).inA.toNat % (ops 3 2).inB.toNat ≠ 0 ∧ ((2 : Word64).toNat % 256 = 2 ∧ (ops 0 2).inA = 0) ∧
    (ops 1 0).inA ≠ 0 := by decide

theorem test_hyp_faulted_accesses :
    (withNext faulted (.read 0x04 32)).err = true ∧ (withNext faulted (.write 0x08 64 1)).err = true ∧
    (Transaction.read 0x04 32).admitted = true := by decide

/-- A step that keeps the fault, one that leaves it, and one that enters it. -/
theorem test_hyp_fault_latch :
    step (withNext faulted (.write 0x00 8 1)) = .next (faulted.setPending []) ∧ faulted.err = true ∧
    step (withNext faulted .reset) = .next (faulted.setPending []).hostReset ∧
    step (withNext (ops 4096 0) (.write 0x00 8 4)) = .next (faulted.setPending []) ∧
    (ops 4096 0).err = false := ⟨rfl, by decide, rfl, rfl, by decide⟩

theorem test_hyp_repeat : exec .chsenc (ops 0 0) = .next ((ops 0 0).complete [0x00, 0x01, 0x00]) := by rfl

theorem test_hyp_same_operands :
    (ops 5 6).inA = ((ops 5 6).complete [1]).inA ∧ (ops 5 6).inB = ((ops 5 6).complete [1]).inB ∧
    (ops 5 6).err = ((ops 5 6).complete [1]).err ∧ (ops 5 6).out ≠ ((ops 5 6).complete [1]).out := by decide

/-- A write of IN_A is a step that is neither a command nor a reset. -/
theorem test_hyp_not_live :
    step (withNext (ops 1 0) (.write 0x08 64 7)) = .next (((ops 1 0).setPending []).setInA 7) ∧
    (∀ data rest, (withNext (ops 1 0) (.write 0x08 64 7)).pending ≠ .transaction (.write 0x00 8 data) :: rest) ∧
    (∀ rest, (withNext (ops 1 0) (.write 0x08 64 7)).pending ≠ .transaction .reset :: rest) := by
  refine ⟨rfl, fun data rest h => ?_, fun rest h => ?_⟩ <;> simp [withNext] at h

/-- A state with something to do that meets the invariant, and its step. -/
theorem test_hyp_invariant :
    (withNext (ops 512 512) (.write 0x00 8 5)).Inv ∧ (ops 512 512).StatusInv ∧
    ∃ t, step (withNext (ops 512 512) (.write 0x00 8 5)) = .next t := by
  refine ⟨⟨⟨by decide, by decide, by decide, by decide, by decide⟩, fun h => ?_, fun h => ?_, List.Pairwise.nil⟩,
    ⟨by decide, by decide, by decide, by decide, by decide⟩, _, rfl⟩
  · exact absurd h (by decide)
  · exact absurd h (by decide)

theorem test_hyp_device_write :
    ((ops 0 0).setPending [.devWrite 446 (.outSlice 0 15)]).pending = [.devWrite 446 (.outSlice 0 15)] ∧
    ((ops 0 0).setPending [.devWrite 0 (.literal [1, 2])]).pending = [.devWrite 0 (.literal [1, 2])] := by decide

/-- An AREA result on a block the host has zero-filled. -/
def placed : State :=
  { ops 512 512 with out := outOf (area 512 512), device := Memory.writeBytes [] 0 (List.replicate 512 0) }

theorem test_hyp_placement : Memory.firstBlockZero placed.device ∧ placed.out[16] = 0x55 ∧ placed.out[17] = 0xAA :=
  ⟨firstBlockZero_zeroFill (s := { placed with device := [] }) rfl, by decide, by decide⟩

/-- The open parameter: the one case it decides (513 and 512, unfaulted), and each case it does not. -/
theorem test_hyp_open_parameter :
    ((ops 513 512).err = false ∧ (ops 513 512).inB ≠ 0 ∧ (ops 513 512).inB.toNat ≤ (ops 513 512).inA.toNat ∧
      (ops 513 512).inA.toNat % (ops 513 512).inB.toNat ≠ 0) ∧
    faulted.err = true ∧ ((ops 7 0).inB = 0 ∧ (ops 7 0).inA ≠ 0) ∧ (ops 3 5).inA.toNat < (ops 3 5).inB.toNat ∧
    (ops 1024 512).inA.toNat % (ops 1024 512).inB.toNat = 0 := by decide

/-- The whole flow: a block faulted before, each fault of the sizes, an accepted size, and a first block of either kind. -/
theorem test_hyp_whole_flow :
    faulted.err = true ∧ (ops 0 0).err = false ∧ (511 : Word64).toNat < (512 : Word64).toNat ∧
    (513 : Word64).toNat % (512 : Word64).toNat ≠ 0 ∧ (512 : Word64) ≠ 0 ∧
    (512 : Word64).toNat ≤ (1024 : Word64).toNat ∧ (1024 : Word64).toNat % (512 : Word64).toNat = 0 ∧
    Memory.firstBlockZero placed.device ∧ ¬ Memory.firstBlockZero State.reset.device :=
  ⟨by decide, by decide, by decide, by decide, by decide, by decide, by decide, test_hyp_placement.1,
    fun h => absurd (h 0 (by decide)) (by decide)⟩

/-- The text of programs: numbers at and above each bound, and a line without a comment. -/
theorem test_hyp_program_text :
    2 ^ 64 ≤ 18446744073709551616 ∧ 256 ≤ 256 ∧ 18 ≤ 18 ∧ ';' ∉ "RD8 OUT[17]".toList := by decide

/-- A program that has a run, with a command, a read and a device write. -/
theorem test_hyp_run :
    (∃ t, runProgram [commandWrite 1, .transaction (.read 0x04 32), .devWrite 446 (.outSlice 0 15)] = .next t) ∧
    (HostAction.transaction (.read 0x31 8)).admitted = true ∧ HostAction.admitted (.transaction .reset) = true :=
  ⟨⟨_, rfl⟩, by decide, by decide⟩

theorem test_hyp_transaction_step :
    step (withNext (ops 1 0) (.read 0x08 64)) = .next (((ops 1 0).setPending []).observe (.operand 1)) := by rfl

theorem test_hyp_text :
    (Transaction.write 0x08 64 16194).admitted = true ∧ (16194 : Word64).toNat < 2 ^ 64 ∧
    (Transaction.write 0x00 8 255).admitted = true ∧ (255 : Word64).toNat < 2 ^ 8 ∧ State.reset.pending = [] ∧
    (SourceStmt.rdOut 18).expand ≠ none ∧ (SourceStmt.rdOut 19).expand = none ∧
    (SourceStmt.run .build 1).expand = none ∧ (SourceStmt.runPair .scnt 1 2).expand = none := by decide

end Sys2Proof.Tests
end

section
/-! PROOFS of the scope statements: the open parameter (spec/00_scope.md R12; 41_record_builder.md R141) and the host's
device write (00_scope.md R15; 20_memory.md R52, R55). -/

namespace Sys2Proof.Machine

/-! ### The ends of a command issued to an unfaulted block -/

/-- What taking a fault leaves (spec/60_exceptions.md R172). -/
theorem faultedWith_raise (s : State) (c : FaultCode) : FaultedWith s (s.raise c) c.code :=
  ⟨by simp, by simp, by simp, by simp, by simp, commandFrame_raise s c⟩

/-- A command whose outcome is a result completes with it. -/
theorem issue_ok_completedWith {s : State} (he : s.err = false) {r : List Byte} (hr : r.length ≤ 18) :
    ∃ t, issue s (.ok r) = .next t ∧ CompletedWith s t r :=
  ⟨s.complete r, issue_unfaulted he _, completedWith_complete s r hr⟩

/-- A command whose outcome is a fault takes it. -/
theorem issue_error_faultedWith {s : State} (he : s.err = false) (c : FaultCode) :
    ∃ t, issue s (.error c) = .next t ∧ FaultedWith s t c.code :=
  ⟨s.raise c, issue_unfaulted he _, faultedWith_raise s c⟩

/-! ### Results behind the precondition check, at either value of the open parameter -/

theorem checked_of_none {reject : Bool} {a b : Word64} (h : buildCheck reject a b = none) (r : List Byte) :
    checked reject a b r = .ok r := by
  rw [checked, h]

theorem checked_of_some {reject : Bool} {a b : Word64} {c : FaultCode} (h : buildCheck reject a b = some c)
    (r : List Byte) : checked reject a b r = .error c := by
  rw [checked, h]

/-- The check reads the parameter only on an accepted size that is no multiple of the block size. -/
theorem buildCheck_reject_irrelevant {a b : Word64} (h : b = 0 ∨ a.toNat < b.toNat ∨ a.toNat % b.toNat = 0)
    (reject reject' : Bool) : buildCheck reject a b = buildCheck reject' a b := by
  by_cases hb : b = 0
  · rw [buildCheck_bsZero _ hb, buildCheck_bsZero _ hb]
  · by_cases hl : a.toNat < b.toNat
    · rw [buildCheck_emptyDevice _ hb hl, buildCheck_emptyDevice _ hb hl]
    · have hm : a.toNat % b.toNat = 0 := (h.resolve_left hb).resolve_left hl
      rw [buildCheck_none hb (by omega) (.inl hm), buildCheck_none hb (by omega) (.inl hm)]

theorem execBuildWith_eq_issue_checked (reject : Bool) (s : State) :
    execBuildWith reject s = issue s (checked reject s.inA s.inB (record s.inA s.inB)) := rfl

theorem execAreaWith_eq_issue_checked (reject : Bool) (s : State) :
    execAreaWith reject s = issue s (checked reject s.inA s.inB (area s.inA s.inB)) := rfl

/-- With the parameter true, a non-multiple of an accepted size takes NONMULTIPLE. -/
theorem issue_checked_faults_of_nonmultiple {s : State} (he : s.err = false) (hb : s.inB ≠ 0)
    (hl : s.inB.toNat ≤ s.inA.toNat) (hm : s.inA.toNat % s.inB.toNat ≠ 0) (r : List Byte) :
    ∃ t, issue s (checked true s.inA s.inB r) = .next t ∧ FaultedWith s t 4 := by
  rw [checked_of_some (buildCheck_nonmultiple hb hl hm)]
  exact issue_error_faultedWith he .nonmultiple

/-- With the parameter false, every accepted size completes. -/
theorem issue_checked_completes_of_truncating {s : State} (he : s.err = false) (hb : s.inB ≠ 0)
    (hl : s.inB.toNat ≤ s.inA.toNat) {r : List Byte} (hr : r.length ≤ 18) :
    ∃ t, issue s (checked false s.inA s.inB r) = .next t ∧ CompletedWith s t r := by
  rw [checked_of_none (buildCheck_none hb hl (.inr rfl))]
  exact issue_ok_completedWith he hr

/-- The parameter makes no difference to a faulted block, nor where the check does not read it. -/
theorem issue_checked_reject_irrelevant {s : State}
    (h : s.err = true ∨ s.inB = 0 ∨ s.inA.toNat < s.inB.toNat ∨ s.inA.toNat % s.inB.toNat = 0) (r : List Byte) :
    issue s (checked true s.inA s.inB r) = issue s (checked false s.inA s.inB r) := by
  rcases h with he | h
  · rw [issue_faulted he, issue_faulted he]
  · rw [checked, checked, buildCheck_reject_irrelevant h true false]

/-! ### The bytes a device write carries -/

@[simp] theorem State.setPending_devBytes (s : State) (p : List HostAction) (b : DevBytes) :
    (s.setPending p).devBytes b = s.devBytes b := by
  cases b <;> rfl

theorem State.devBytes_outSlice_length (s : State) (first last : Fin 18) :
    (s.devBytes (.outSlice first last)).length = last.val + 1 - first.val := by
  simp only [State.devBytes, List.length_drop, List.length_take, Vector.length_toList]
  omega

/-- Byte `k` of a slice of `OUT` is the `k`-th from the slice's first (spec/20_memory.md R52). -/
theorem State.devBytes_outSlice_getElem? (s : State) {first last : Fin 18} {k : Nat} (h : first.val + k ≤ last.val) :
    (s.devBytes (.outSlice first last))[k]? = s.out[first.val + k]? := by
  rw [State.devBytes, List.getElem?_drop, List.getElem?_take_of_lt (by omega), Vector.getElem?_toList]

/-- `OUT[0..15]` of a completed BUILD is its record. -/
theorem State.devBytes_complete_record (s : State) (total bs : Word64) :
    (s.complete (record total bs)).devBytes (.outSlice 0 15) = record total bs := by
  have hlen := record_length total bs
  simpa [State.devBytes] using outOf_take (n := 16) (by omega) hlen.symm

/-! ### A device write, and the placement of a BUILD result by one -/

/-- Every device byte after a device write. -/
theorem State.read_devWrite (s : State) (offset : Nat) (b : DevBytes) (a : Nat) :
    Memory.read (s.devWrite offset b).device a =
      if offset ≤ a ∧ a < offset + (s.devBytes b).length then (s.devBytes b)[a - offset]?
      else Memory.read s.device a := by
  rw [State.devWrite_device, Memory.read_writeBytes]

/-- Placing the result of a completed BUILD: bytes 446 to 461 are the record, every other is as before. -/
theorem State.read_placeRecord_complete (s : State) (total bs : Word64) (a : Nat) :
    Memory.read (s.complete (record total bs)).placeRecord.device a =
      if 446 ≤ a ∧ a < 462 then (record total bs)[a - 446]? else Memory.read s.device a := by
  rw [State.placeRecord, State.read_devWrite, State.devBytes_complete_record, record_length, State.complete_device]

/-- BUILD on an accepted size at the implementation's parameter. -/
theorem exec_build_completes {s : State} (he : s.err = false) (hb : s.inB ≠ 0) (hl : s.inB.toNat ≤ s.inA.toNat)
    (hm : s.inA.toNat % s.inB.toNat = 0 ∨ Config.rejectNonmultiple = false) :
    exec .build s = .next (s.complete (record s.inA s.inB)) := by
  rw [exec, execBuild, execBuildWith_eq_issue_checked, checked_of_none (buildCheck_none hb hl hm), issue_unfaulted he,
    State.conclude]

/-! ### The statements -/

/-- Settles O31: BUILD and AREA are one operation behind the check, and the check reads the parameter in one branch only. -/
theorem openParameterDecidesNonMultiples : Obligations.OpenParameterDecidesNonMultiples := by
  refine ⟨fun s he hb hl hm => ?_, fun s h => ?_, fun s => ⟨rfl, rfl⟩⟩
  · simp only [execBuildWith_eq_issue_checked, execAreaWith_eq_issue_checked]
    have hrecord : (record s.inA s.inB).length ≤ 18 := by rw [record_length]; omega
    have harea : (area s.inA s.inB).length ≤ 18 := by rw [area_length]
    exact ⟨issue_checked_faults_of_nonmultiple he hb hl hm _, issue_checked_faults_of_nonmultiple he hb hl hm _,
      issue_checked_completes_of_truncating he hb hl hrecord, issue_checked_completes_of_truncating he hb hl harea⟩
  · simp only [execBuildWith_eq_issue_checked, execAreaWith_eq_issue_checked]
    exact ⟨issue_checked_reject_irrelevant h _, issue_checked_reject_irrelevant h _⟩

/-- Settles O50: the step is the device write itself, whose bytes `Memory.read_writeBytes` gives one by one. -/
theorem devWriteStoresItsBytes : Obligations.DevWriteStoresItsBytes := by
  refine ⟨fun s offset b rest hp => ?_, fun s he hb hl hm => ?_⟩
  · refine ⟨(s.setPending rest).devWrite offset b, step_pending hp, fun a => ?_, ?_, ?_, ?_, by simp⟩
    · rw [State.read_devWrite, State.setPending_devBytes, State.setPending_device]
    · rintro bytes rfl; rfl
    · rintro first last rfl k hk; exact s.devBytes_outSlice_getElem? hk
    · rintro first last rfl; exact s.devBytes_outSlice_length first last
  · exact ⟨_, exec_build_completes he hb hl hm, rfl, s.read_placeRecord_complete s.inA s.inB⟩

end Sys2Proof.Machine
end

section
/-! PROOFS of the state statements (spec/10_state.md): the register map and its refusals, the frame of the commands, the
invariant and its steps, the words of `STATUS`, and runs against steps. -/

namespace Sys2Proof.Machine

/-! ### One action of the host, by what it is (R30 to R34) -/

@[simp] theorem State.setPending_setPending (s : State) (p q : List HostAction) :
    (s.setPending p).setPending q = s.setPending q := rfl

@[simp] theorem State.setPending_self (s : State) : s.setPending s.pending = s := rfl

theorem perform_write_cmd (data : Word64) (s : State) :
    perform (.transaction (.write 0x00 8 data)) s = execute (data.extractLsb' 0 8) s := rfl

theorem perform_write_inA (data : Word64) (s : State) :
    perform (.transaction (.write 0x08 64 data)) s = .next (s.setInA data) := rfl

theorem perform_write_inB (data : Word64) (s : State) :
    perform (.transaction (.write 0x10 64 data)) s = .next (s.setInB data) := rfl

theorem perform_read_status (s : State) :
    perform (.transaction (.read 0x04 32)) s = .next (s.observe (.status s.statusRead)) := rfl

theorem perform_read_inA (s : State) :
    perform (.transaction (.read 0x08 64)) s = .next (s.observe (.operand s.inA)) := rfl

theorem perform_read_inB (s : State) :
    perform (.transaction (.read 0x10 64)) s = .next (s.observe (.operand s.inB)) := rfl

theorem registerAt_out (i : Fin 18) : registerAt (0x20 + i.val) = some (.out i) := by
  unfold registerAt
  rw [if_neg (by omega), if_neg (by omega), if_neg (by omega), if_neg (by omega), dif_pos (by omega)]
  simp

theorem admitRead_out (i : Fin 18) : admitRead (0x20 + i.val) 8 = .ok (.out i) := by
  simp [admitRead, locate, registerAt_out, Register.width, Register.readable]

theorem perform_read_out (i : Fin 18) (s : State) :
    perform (.transaction (.read (0x20 + i.val) 8)) s = .next (s.observe (.byte s.out[i])) := by
  simp only [perform, transact, hostRead, admitRead_out, State.readRegister]

theorem perform_reset (s : State) : perform (.transaction .reset) s = .next s.hostReset := rfl

theorem execute_of_decode {c : Byte} {i : Instr} (h : decode c = .ok i) (s : State) : execute c s = exec i s := by
  simp only [execute, h]

/-! ### Single steps -/

/-- Settles O4: a write of CMD executes its low byte, and executing a byte that decodes runs its command. -/
theorem stepRunsDecodedInstruction : Obligations.StepRunsDecodedInstruction := by
  intro s data rest i hp hi
  rw [step_pending hp, perform_write_cmd, execute_of_decode hi]

/-- A table word that decodes is a byte. -/
theorem decode_of_decodeTableWord {w : Nat} {i : Instr} (h : decodeTableWord 8 w = some i) :
    w < 256 ∧ decode (BitVec.ofNat 8 w) = .ok i := by
  unfold decodeTableWord at h
  split at h
  · next hw =>
    cases hd : decode (BitVec.ofNat 8 w) with
    | ok j => rw [hd] at h; cases h; exact ⟨hw.2, rfl⟩
    | error e => rw [hd] at h; cases h
  · cases h

/-- The write that issues a command byte executes that byte (R31, R81). -/
theorem perform_commandWrite (c : Byte) (s : State) : perform (commandWrite c) s = execute c s := by
  have hlow : (c.setWidth 64).extractLsb' 0 8 = c := by
    apply BitVec.eq_of_toNat_eq
    rw [extract_toNat, BitVec.toNat_setWidth]
    omega
  rw [commandWrite, perform_write_cmd, hlow]

/-- Settles O5: the placed write is the next action, and taking it off gives the state it was placed in. -/
theorem placedCommandRunsNext : Obligations.PlacedCommandRunsNext := by
  intro s w i h
  obtain ⟨hw, hi⟩ := decode_of_decodeTableWord h
  rw [State.withFetchWord, step_pending (State.setPending_pending s _), State.setPending_setPending,
    State.setPending_self, perform_commandWrite, Nat.mod_eq_of_lt (by omega), execute_of_decode hi]

/-- Settles O7: each listed write is the update of the register it names, or the execution of its low byte. -/
theorem hostWriteFollowsRegisterMap : Obligations.HostWriteFollowsRegisterMap := by
  refine fun s data rest => ⟨fun hp => ?_, fun hp => ?_, fun hp => ?_⟩ <;> rw [step_pending hp]
  · exact perform_write_inA data _
  · exact perform_write_inB data _
  · exact perform_write_cmd data _

/-- Settles O8: each listed read appends the register's value to what the host has read. -/
theorem hostReadReturnsRegisterValue : Obligations.HostReadReturnsRegisterValue := by
  refine fun s rest => ⟨fun hp => ?_, fun hp => ?_, fun hp => ?_, fun i hp => ?_⟩ <;> rw [step_pending hp]
  · exact perform_read_status _
  · exact perform_read_inA _
  · exact perform_read_inB _
  · exact perform_read_out i _

theorem registersReset_hostReset (s : State) : s.hostReset.RegistersReset :=
  ⟨rfl, rfl, fun i => by simp, rfl, by simp, by simp, by simp, by simp⟩

/-- Settles O11: HostReset writes the values of `State.reset`, which is its own reset. -/
theorem powerOnEqualsHostReset : Obligations.PowerOnEqualsHostReset :=
  ⟨registersReset_hostReset State.reset, fun s rest hp =>
    ⟨(s.setPending rest).hostReset, (step_pending hp).trans (perform_reset _), registersReset_hostReset _,
      rfl, rfl, rfl, rfl⟩⟩

/-! ### The frame of the commands -/

/-- Issuing anything answers a next state, within the frame of a command. -/
theorem issue_frame (s : State) (r : Except FaultCode (List Byte)) : ∃ t, issue s r = .next t ∧ CommandFrame s t := by
  cases he : s.err with
  | true => exact ⟨s, issue_faulted he r, rfl, rfl, rfl, rfl, fun _ => rfl, rfl⟩
  | false =>
    refine ⟨s.conclude r, issue_unfaulted he r, ?_⟩
    cases r with
    | ok b => exact commandFrame_complete s b
    | error c => exact commandFrame_raise s c

theorem exec_frame (i : Instr) (s : State) : ∃ t, exec i s = .next t ∧ CommandFrame s t := by
  rw [exec_eq_issue]
  exact issue_frame s _

theorem execute_answers (c : Byte) (s : State) : ∃ t, execute c s = .next t := by
  rcases execute_cases c s with ⟨i, -, h⟩ | ⟨e, -, h⟩ <;> rw [h]
  · exact (exec_frame i s).imp fun _ => And.left
  · exact (issue_frame s _).imp fun _ => And.left

/-- Settles O38: every command is one `issue`, which completes, faults or is ignored. -/
theorem commandsWriteOnlyOutAndStatus : Obligations.CommandsWriteOnlyOutAndStatus := exec_frame

/-- Issuing commutes with an update that neither completing nor faulting sees. -/
theorem issue_update_comm {f : State → State} {s : State} (herr : (f s).err = s.err)
    (hcomplete : ∀ b, (f s).complete b = f (s.complete b)) (hraise : ∀ c, (f s).raise c = f (s.raise c))
    (r : Except FaultCode (List Byte)) : issue (f s) r = andThen (issue s r) fun t => .next (f t) := by
  cases he : s.err with
  | true => rw [issue_faulted he, issue_faulted (herr.trans he), andThen]
  | false =>
    rw [issue_unfaulted he, issue_unfaulted (herr.trans he), andThen]
    cases r with
    | ok b => exact congrArg _ (hcomplete b)
    | error c => exact congrArg _ (hraise c)

theorem issue_setInB (s : State) (b : Word64) (r : Except FaultCode (List Byte)) :
    issue (s.setInB b) r = andThen (issue s r) fun t => .next (t.setInB b) :=
  issue_update_comm (f := (State.setInB · b)) (State.setInB_err s b)
    (fun _ => by simp only [State.complete, State.setInB]) (fun _ => by simp only [State.raise, State.setInB]) r

theorem issue_setPending (s : State) (q : List HostAction) (r : Except FaultCode (List Byte)) :
    issue (s.setPending q) r = andThen (issue s r) fun t => .next (t.setPending q) :=
  issue_update_comm (f := (State.setPending · q)) (State.setPending_err s q)
    (fun _ => by simp only [State.complete, State.setPending]) (fun _ => by simp only [State.raise, State.setPending]) r

/-- The one-operand commands compute from IN_A alone (R24). -/
theorem resultOf_ignores_inB {i : Instr} (h : i = .chsenc ∨ i = .chslast ∨ i = .scnt) (reject : Bool) (a b b' : Word64) :
    resultOf reject a b i = resultOf reject a b' i := by
  rcases h with rfl | rfl | rfl <;> rfl

/-- Settles O41: their result is the same, and delivering it or faulting leaves IN_B alone. -/
theorem oneOperandCommandsIgnoreInB : Obligations.OneOperandCommandsIgnoreInB := by
  intro s b i hi
  obtain ⟨t, ht, -⟩ := exec_frame i s
  refine ⟨t, t.setInB b, ht, ?_, rfl⟩
  rw [exec_eq_issue, resultOf_ignores_inB hi _ _ _ s.inB, State.setInB_inA, issue_setInB, ← exec_eq_issue, ht, andThen]

/-! ### Which actions have a step (R33) -/

/-- The writes the register map lists. -/
theorem write_admitted_iff (offset width : Nat) (data : Word64) :
    (Transaction.write offset width data).admitted = true ↔
      (offset = 0x00 ∧ width = 8) ∨ (offset = 0x08 ∧ width = 64) ∨ (offset = 0x10 ∧ width = 64) := by
  constructor
  · intro h
    simp only [Transaction.admitted, Transaction.refusal] at h
    cases hw : admitWrite offset width with
    | error e => rw [hw] at h; cases h
    | ok r => exact (admitWrite_ok hw).imp And.right (Or.imp And.right And.right)
  · rintro (⟨rfl, rfl⟩ | ⟨rfl, rfl⟩ | ⟨rfl, rfl⟩) <;> rfl

/-- The reads the register map lists. -/
theorem read_admitted_iff (offset width : Nat) :
    (Transaction.read offset width).admitted = true ↔
      (offset = 0x04 ∧ width = 32) ∨ (offset = 0x08 ∧ width = 64) ∨ (offset = 0x10 ∧ width = 64) ∨
        (0x20 ≤ offset ∧ offset ≤ 0x31 ∧ width = 8) := by
  constructor
  · intro h
    obtain ⟨r, hr⟩ := read_admitted h
    refine (admitRead_ok hr).imp And.right (Or.imp And.right (Or.imp And.right ?_))
    rintro ⟨i, -, rfl, rfl⟩
    omega
  · rintro (⟨rfl, rfl⟩ | ⟨rfl, rfl⟩ | ⟨rfl, rfl⟩ | ⟨hlo, hhi, rfl⟩)
    · rfl
    · rfl
    · rfl
    · obtain ⟨i, rfl⟩ : ∃ i : Fin 18, offset = 0x20 + i.val := ⟨⟨offset - 0x20, by omega⟩, by simp only; omega⟩
      simp [Transaction.admitted, Transaction.refusal, admitRead_out]

/-- An admitted action has a step from every state. -/
theorem perform_of_admitted {a : HostAction} (h : a.admitted = true) (s : State) : ∃ t, perform a s = .next t := by
  cases a with
  | devWrite offset b => exact ⟨_, rfl⟩
  | transaction tr =>
    cases tr with
    | reset => exact ⟨_, rfl⟩
    | read offset width =>
      obtain ⟨r, hr⟩ := read_admitted h
      obtain ⟨v, -, hv⟩ := perform_read hr s
      exact ⟨_, hv⟩
    | write offset width data =>
      rcases (write_admitted_iff offset width data).1 h with ⟨rfl, rfl⟩ | ⟨rfl, rfl⟩ | ⟨rfl, rfl⟩
      · exact execute_answers _ s
      · exact ⟨_, perform_write_inA data s⟩
      · exact ⟨_, perform_write_inB data s⟩

/-- Any other action is refused in every state. -/
theorem perform_of_not_admitted {a : HostAction} (h : a.admitted = false) (s : State) :
    ∃ e, perform a s = .refused e := by
  cases a with
  | devWrite offset b => cases h
  | transaction tr =>
    simp only [HostAction.admitted, HostAction.refusal] at h
    cases tr with
    | reset => cases h
    | read offset width =>
      cases hr : admitRead offset width with
      | ok r => simp [Transaction.refusal, hr] at h
      | error e => exact ⟨e, by simp only [perform, transact, hostRead, hr]⟩
    | write offset width data =>
      cases hw : admitWrite offset width with
      | ok r => simp [Transaction.refusal, hw] at h
      | error e => exact ⟨e, by simp only [perform, transact, hostWrite, hw]⟩

/-- No action of the host ends the run (R20: only its having none left does). -/
theorem perform_ne_fault (a : HostAction) (s : State) (f : Fault) : perform a s ≠ .fault f := by
  cases h : a.admitted with
  | true => obtain ⟨t, ht⟩ := perform_of_admitted h s; simp [ht]
  | false => obtain ⟨e, he⟩ := perform_of_not_admitted h s; simp [he]

theorem programRefusal_of_admitted {p : List HostAction} (h : ∀ a ∈ p, a.admitted = true) :
    programRefusal p = none := by
  induction p with
  | nil => rfl
  | cons a p ih =>
    have ha : a.refusal = none := by simpa [HostAction.admitted] using h a (by simp)
    rw [programRefusal, ha]
    exact ih fun b hb => h b (by simp [hb])

theorem programRefusal_of_not_admitted {p : List HostAction} {a : HostAction} (hp : a ∈ p) (ha : a.admitted = false) :
    ∃ e, programRefusal p = some e := by
  induction p with
  | nil => cases hp
  | cons b p ih =>
    rw [programRefusal]
    cases hb : b.refusal with
    | some e => exact ⟨e, rfl⟩
    | none =>
      rcases List.mem_cons.1 hp with rfl | hp
      · simp [HostAction.admitted, hb] at ha
      · exact ih hp

theorem runActions_of_admitted {p : List HostAction} (h : ∀ a ∈ p, a.admitted = true) (s : State) :
    ∃ t, runActions p s = .next t := by
  induction p generalizing s with
  | nil => exact ⟨s, rfl⟩
  | cons a p ih =>
    obtain ⟨t, ht⟩ := perform_of_admitted (h a (by simp)) s
    rw [runActions, ht]
    exact ih (fun b hb => h b (by simp [hb])) t

/-- A step on an action that is admitted exactly under a condition. -/
theorem step_of_admitted_iff {s : State} {a : HostAction} {rest : List HostAction} (hp : s.pending = a :: rest)
    {P : Prop} [Decidable P] (h : a.admitted = true ↔ P) :
    if P then ∃ t, step s = .next t else ∃ e, step s = .refused e := by
  rw [step_pending hp]
  split
  · next hP => exact perform_of_admitted (h.2 hP) _
  · next hP => exact perform_of_not_admitted (Bool.eq_false_iff.2 (mt h.1 hP)) _

/-- Settles O9: the register map's rows are the admitted accesses, and an action has a step exactly if it is admitted. -/
theorem unlistedAccessesAreRefused : Obligations.UnlistedAccessesAreRefused := by
  refine ⟨fun s offset width data rest hp => ?_, fun s offset width rest hp => ?_, fun p => ?_⟩
  · exact step_of_admitted_iff hp (write_admitted_iff offset width data)
  · exact step_of_admitted_iff hp (read_admitted_iff offset width)
  · split
    · next h =>
      obtain ⟨a, hp, ha⟩ := h
      obtain ⟨e, he⟩ := programRefusal_of_not_admitted hp ha
      exact ⟨e, by rw [runProgram, he]⟩
    · next h =>
      have hall : ∀ a ∈ p, a.admitted = true := fun a ha => by
        by_contra hf
        exact h ⟨a, ha, Bool.eq_false_iff.2 hf⟩
      rw [runProgram, programRefusal_of_admitted hall]
      exact runActions_of_admitted hall State.reset

/-- Settles O12: an empty queue ends the run, and no action of the host does. -/
theorem runEndsWhenHostIsDone : Obligations.RunEndsWhenHostIsDone := by
  intro s
  constructor
  · intro h
    cases hp : s.pending with
    | nil => rfl
    | cons a rest => exact absurd (step_pending hp ▸ h) (perform_ne_fault a _ _)
  · intro h
    simp only [step, hostTurn, h]

/-! ### Packed CHS bytes (spec/40_geometry_encoder.md R103, R106) -/

/-- Decoding the three packed bytes of a tuple gives the tuple back. -/
theorem decodeChs_packChs (t : Chs) :
    decodeChs t.head (t.cyl.extractLsb' 8 2 ++ t.sec : BitVec (2 + 6)) (t.cyl.extractLsb' 0 8) = t := by
  obtain ⟨cyl, head, sec⟩ := t
  simp only [decodeChs, Chs.mk.injEq, true_and]
  constructor <;> apply BitVec.eq_of_toNat_eq
  · rw [append_toNat, extract_toNat, append_toNat, extract_toNat, extract_toNat]
    omega
  · rw [extract_toNat, append_toNat, extract_toNat]
    omega

theorem chsOf_head_le (lba : Word64) : (chsOf lba).head.toNat ≤ 254 := by
  simp only [chsOf, BitVec.toNat_ofNat, headOf_eq]
  omega

theorem one_le_chsOf_sec (lba : Word64) : 1 ≤ (chsOf lba).sec.toNat := by
  simp only [chsOf, BitVec.toNat_ofNat, secOf_eq]
  omega

/-- The saturated tuple is the packed CHS of LBA 16450559 (R108, R133). -/
theorem chsSaturated_eq_encodeChs : chsSaturated = encodeChs 16450559 := by decide

theorem lastChs_eq_encodeChs (n : Word64) : ∃ lba, lastChs n = encodeChs lba := by
  unfold lastChs
  split
  · exact ⟨_, chsSaturated_eq_encodeChs⟩
  · exact ⟨_, rfl⟩

/-! ### What commands compute -/

theorem checked_ok {reject : Bool} {a b : Word64} {r' r : List Byte} (h : checked reject a b r' = .ok r) : r = r' := by
  unfold checked at h
  split at h <;> cases h
  rfl

/-- The precondition check finds no illegal byte: its three causes are those of R141. -/
theorem checked_error {reject : Bool} {a b : Word64} {r : List Byte} {c : FaultCode}
    (h : checked reject a b r = .error c) : c ≠ .illegalCmd := by
  unfold checked buildCheck at h
  rintro rfl
  split_ifs at h <;> cases h

/-- The four forms of a completed command's result: a packed CHS (R110, R150), a sector count (R151), a record (R152), an
area (R153). -/
theorem resultOf_ok_forms {reject : Bool} {a b : Word64} {i : Instr} {r : List Byte} (h : resultOf reject a b i = .ok r) :
    (∃ lba, r = encodeChs lba) ∨ (∃ n, r = sectorCount n) ∨ (∃ n, r = recordOf n) ∨
      (∃ n, r = recordOf n ++ bootSignature) := by
  cases i with
  | chsenc => cases h; exact .inl ⟨a, rfl⟩
  | chslast =>
    simp only [resultOf, chslastResult] at h
    split at h <;> cases h
    exact .inl (lastChs_eq_encodeChs a)
  | scnt => cases h; exact .inr (.inl ⟨a, rfl⟩)
  | build => exact .inr (.inr (.inl ⟨_, checked_ok h⟩))
  | area => exact .inr (.inr (.inr ⟨_, checked_ok h⟩))

/-- A decoded command's fault is never ILLEGAL_CMD. -/
theorem resultOf_error {reject : Bool} {a b : Word64} {i : Instr} {c : FaultCode}
    (h : resultOf reject a b i = .error c) : c ≠ .illegalCmd := by
  cases i with
  | chsenc => cases h
  | chslast =>
    simp only [resultOf, chslastResult] at h
    split at h <;> cases h
    decide
  | scnt => cases h
  | build => exact checked_error h
  | area => exact checked_error h

theorem resultLength_mem (i : Instr) : resultLength i ∈ [3, 4, 16, 18] := by
  cases i <;> decide

theorem resultOf_length_mem {reject : Bool} {a b : Word64} {i : Instr} {r : List Byte}
    (h : resultOf reject a b i = .ok r) : r.length ∈ [3, 4, 16, 18] :=
  resultOf_length h ▸ resultLength_mem i

theorem length_le_of_mem {r : List Byte} (h : r.length ∈ [3, 4, 16, 18]) : r.length ≤ 18 := by
  simp only [List.mem_cons, List.not_mem_nil, or_false] at h
  omega

theorem resultOf_length_le {reject : Bool} {a b : Word64} {i : Instr} {r : List Byte}
    (h : resultOf reject a b i = .ok r) : r.length ≤ 18 :=
  length_le_of_mem (resultOf_length_mem h)

/-! ### The invariant, part by part, over the ends of a command -/

theorem FaultCode.code_range (c : FaultCode) : 1 ≤ c.code.toNat ∧ c.code.toNat ≤ 4 := by
  cases c <;> decide

theorem complete_outLen_toNat (s : State) {r : List Byte} (hr : r.length ≤ 18) :
    (s.complete r).outLen.toNat = r.length := by
  obtain ⟨-, hlen, -⟩ := completedWith_complete s r hr
  exact hlen

/-- Completing with a result of a listed length keeps the promises about `STATUS` (R26 to R29). -/
theorem State.StatusInv.complete {s : State} (h : s.StatusInv) (he : s.err = false) {r : List Byte}
    (hr : r.length ∈ [3, 4, 16, 18]) : (s.complete r).StatusInv := by
  obtain ⟨hreserved, hcode, -⟩ := h
  have hlen : (s.complete r).outLen.toNat = r.length := complete_outLen_toNat s (length_le_of_mem hr)
  have hne : (s.complete r).outLen ≠ 0 := by
    intro h0
    rw [← hlen, h0] at hr
    exact absurd hr (by decide)
  refine ⟨by simpa using hreserved, by simpa using hcode, by simp [he], ?_, ?_⟩
  · rw [hlen]
    exact List.mem_cons_of_mem 0 hr
  · rw [State.complete_valid]
    simp only [hne, Bool.true_eq_false]

/-- Taking a fault keeps the promises about `STATUS` (R172). -/
theorem State.StatusInv.raise {s : State} (h : s.StatusInv) (c : FaultCode) : (s.raise c).StatusInv := by
  obtain ⟨hreserved, -⟩ := h
  exact ⟨by simpa using hreserved, by simp, by simpa using c.code_range, by simp, by simp⟩

theorem tailZero_complete (s : State) {r : List Byte} (hr : r.length ≤ 18) : (s.complete r).TailZero := by
  intro _ i hi
  rw [complete_outLen_toNat s hr] at hi
  simp [hi]

/-- A completed packed CHS: the tuple its bytes decode to is that of an LBA. -/
theorem resultShape_complete_chs (s : State) (lba : Word64) : (s.complete (encodeChs lba)).ResultShape := by
  have hlen : (s.complete (encodeChs lba)).outLen = 3 := by rw [State.complete_outLen, encodeChs_length]; rfl
  have hdecode : decodeChs (s.complete (encodeChs lba)).out[0] (s.complete (encodeChs lba)).out[1]
      (s.complete (encodeChs lba)).out[2] = chsOf lba := by
    simp only [State.complete_out, outOf_getElem]
    exact decodeChs_packChs (chsOf lba)
  intro _
  rw [hlen, hdecode]
  exact ⟨fun _ => ⟨one_le_chsOf_sec lba, chsOf_head_le lba⟩, by simp, by simp⟩

theorem resultShape_complete_sectorCount (s : State) (n : Word64) : (s.complete (sectorCount n)).ResultShape := by
  intro _
  rw [State.complete_outLen, sectorCount_length]
  exact ⟨by simp, by simp, by simp⟩

/-- The fixed bytes of a record at the front of `OUT`, whatever follows it (R138). -/
theorem outOf_recordOf_fixed (n : Word64) {tail : List Byte} (h : tail.length ≤ 2) :
    (outOf (recordOf n ++ tail)).toList.take 5 = [0x00, 0x00, 0x01, 0x00, 0x0B] ∧
      ((outOf (recordOf n ++ tail)).toList.drop 8).take 4 = [0x00, 0x00, 0x00, 0x00] := by
  rw [outOf_toList _ (by simp [recordOf_length]; omega)]
  obtain ⟨_, _, _, _, _, _, _, -, -, hrecord⟩ := recordOf_shape n
  simp [hrecord]

theorem resultShape_complete_record (s : State) (n : Word64) : (s.complete (recordOf n)).ResultShape := by
  intro _
  rw [State.complete_outLen, recordOf_length, State.complete_out]
  exact ⟨by simp, fun _ => by simpa using outOf_recordOf_fixed n (tail := []) (by simp), by simp⟩

theorem resultShape_complete_area (s : State) (n : Word64) :
    (s.complete (recordOf n ++ bootSignature)).ResultShape := by
  intro _
  rw [State.complete_outLen, List.length_append, recordOf_length, State.complete_out]
  refine ⟨by simp, fun _ => outOf_recordOf_fixed n (by simp), fun _ => ?_⟩
  simp [recordOf_length]

theorem resultShape_complete {reject : Bool} {a b : Word64} {i : Instr} {r : List Byte}
    (h : resultOf reject a b i = .ok r) (s : State) : (s.complete r).ResultShape := by
  rcases resultOf_ok_forms h with ⟨lba, rfl⟩ | ⟨n, rfl⟩ | ⟨n, rfl⟩ | ⟨n, rfl⟩
  · exact resultShape_complete_chs s lba
  · exact resultShape_complete_sectorCount s n
  · exact resultShape_complete_record s n
  · exact resultShape_complete_area s n

/-! ### The invariant over the steps -/

theorem State.Inv.device_wf {s : State} (h : s.Inv) : Memory.wf s.device := by
  obtain ⟨-, -, -, hdevice⟩ := h
  exact hdevice

theorem State.Inv.complete {s : State} (h : s.Inv) (he : s.err = false) {reject : Bool} {a b : Word64} {i : Instr}
    {r : List Byte} (hr : resultOf reject a b i = .ok r) : (s.complete r).Inv := by
  obtain ⟨hstatus, -, -, hdevice⟩ := h
  exact ⟨hstatus.complete he (resultOf_length_mem hr), tailZero_complete s (resultOf_length_le hr),
    resultShape_complete hr s, by simpa using hdevice⟩

/-- A state that holds no result owes nothing of its bytes. -/
theorem State.inv_of_not_valid {s : State} (hs : s.StatusInv) (hv : s.valid = false) (hd : Memory.wf s.device) :
    s.Inv :=
  ⟨hs, fun h => by simp [hv] at h, fun h => by simp [hv] at h, hd⟩

theorem State.Inv.raise {s : State} (h : s.Inv) (c : FaultCode) : (s.raise c).Inv := by
  obtain ⟨hstatus, -, -, hdevice⟩ := h
  exact State.inv_of_not_valid (hstatus.raise c) (by simp) (by simpa using hdevice)

/-- HostReset establishes the invariant from any state with a canonical device. -/
theorem State.inv_hostReset {s : State} (hd : Memory.wf s.device) : s.hostReset.Inv :=
  State.inv_of_not_valid ⟨by simp, by simp, by simp, by simp, by simp⟩ (by simp) hd

theorem State.Inv.execute {c : Byte} {s t : State} (h : s.Inv) (hst : execute c s = .next t) : t.Inv := by
  rcases execute_next hst with ⟨-, rfl⟩ | ⟨he, i, r, -, hr, rfl⟩ | ⟨-, f, rfl⟩
  · exact h
  · exact h.complete he hr
  · exact h.raise f

theorem State.Inv.perform {a : HostAction} {s t : State} (h : s.Inv) (hst : perform a s = .next t) : t.Inv := by
  rcases perform_cases hst with ⟨data, -, hx⟩ | ⟨data, -, rfl⟩ | ⟨data, -, rfl⟩ | ⟨offset, width, v, -, rfl⟩ | ⟨-, rfl⟩ |
    ⟨offset, b, -, rfl⟩
  · exact h.execute hx
  · exact State.Inv_congr h rfl rfl h.device_wf
  · exact State.Inv_congr h rfl rfl h.device_wf
  · exact State.Inv_congr h rfl rfl h.device_wf
  · exact State.inv_hostReset h.device_wf
  · exact State.Inv_congr h rfl rfl (Memory.writeBytes_wf h.device_wf _ _)

theorem State.Inv.setPending {s : State} (h : s.Inv) (p : List HostAction) : (s.setPending p).Inv :=
  State.Inv_congr h rfl rfl h.device_wf

/-- Settles O48, by the cases of what one action of the host can do. -/
theorem everyStepKeepsInvariant : Obligations.EveryStepKeepsInvariant := by
  intro s t h hst
  obtain ⟨a, rest, -, hperform⟩ := step_next hst
  exact (h.setPending rest).perform hperform

/-- Settles O47: the reset state is its own reset. -/
theorem invariantHoldsAtReset : Obligations.InvariantHoldsAtReset :=
  State.inv_hostReset (s := State.reset) Memory.reset_wf

/-- Settles O43, by the cases of what one action, and then one command byte, can do. -/
theorem outIsWrittenWholeOrNotAtAll : Obligations.OutIsWrittenWholeOrNotAtAll := by
  intro s t hst
  obtain ⟨a, rest, hp, hperform⟩ := step_next hst
  rcases perform_cases hperform with ⟨data, rfl, hx⟩ | ⟨data, -, rfl⟩ | ⟨data, -, rfl⟩ | ⟨offset, width, v, -, rfl⟩ |
    ⟨rfl, rfl⟩ | ⟨offset, b, -, rfl⟩
  · rcases execute_next hx with ⟨-, rfl⟩ | ⟨he, i, r, hi, hr, rfl⟩ | ⟨-, f, rfl⟩
    · exact .inl rfl
    · obtain ⟨hout, hlen, hvalid, -⟩ := completedWith_complete (s.setPending rest) r (resultOf_length_le hr)
      exact .inr (.inr ⟨data, rest, i, r, hp, hi, he, hvalid, hlen, hout⟩)
    · exact .inl (by simp)
  · exact .inl rfl
  · exact .inl rfl
  · exact .inl rfl
  · exact .inr (.inl ⟨rest, hp, fun k => by simp⟩)
  · exact .inl rfl

/-! ### The words of `STATUS` -/

/-- With the promises about `STATUS`, its four fields determine the word the host reads. -/
theorem State.StatusInv.statusRead_eq {s : State} (h : s.StatusInv) {w : Word32} (hreserved : w &&& ~~~statusFieldMask = 0)
    (hmask : w &&& statusFieldMask = w) (hvalid : s.valid = w.getLsbD 0) (herr : s.err = w.getLsbD 1)
    (hcode : s.code = getField w 2 3) (houtLen : s.outLen = getField w 8 5) : s.statusRead = w := by
  obtain ⟨hs, -⟩ := h
  have hword : s.status = w := status_ext (hs.trans hreserved.symm) hvalid herr hcode houtLen
  rw [State.statusRead, hword, hmask]

/-- The word after a completion: `VALID`, and the length of the command's result in bits 12:8. -/
def completedWord (i : Instr) : Word32 := BitVec.ofNat 32 (256 * resultLength i + 1)

/-- The word after a fault: `ERR`, and the fault's code in bits 4:2. -/
def faultedWord (c : FaultCode) : Word32 := BitVec.ofNat 32 (4 * c.code.toNat + 2)

/-- Completing leaves its command's word (R29). -/
theorem statusRead_complete {s : State} (h : s.StatusInv) (he : s.err = false) {reject : Bool} {a b : Word64} {i : Instr}
    {r : List Byte} (hr : resultOf reject a b i = .ok r) : (s.complete r).statusRead = completedWord i := by
  have hinv := h.complete he (resultOf_length_mem hr)
  obtain ⟨-, hcode, -⟩ := h
  refine hinv.statusRead_eq ?_ ?_ ((s.complete_valid r).trans ?_) ((s.complete_err r).trans (he.trans ?_))
    ((s.complete_code r).trans ((hcode he).trans ?_))
    ((s.complete_outLen r).trans (resultOf_length hr ▸ ?_)) <;> cases i <;> decide

/-- Taking a fault leaves its code's word (R172, R173). -/
theorem statusRead_raise {s : State} (h : s.StatusInv) (c : FaultCode) : (s.raise c).statusRead = faultedWord c := by
  refine (h.raise c).statusRead_eq ?_ ?_ ((s.raise_valid c).trans ?_) ((s.raise_err c).trans ?_)
    ((s.raise_code c).trans ?_) ((s.raise_outLen c).trans ?_) <;> cases c <;> decide

/-- Settles O49: after the command the promises about `STATUS` still hold, so its fields give the word. -/
theorem statusWordsAfterCommands : Obligations.StatusWordsAfterCommands := by
  intro i s h he
  rw [exec_eq_issue, issue_unfaulted he]
  refine ⟨_, rfl, ?_⟩
  cases hr : resultOf Config.rejectNonmultiple s.inA s.inB i with
  | ok r =>
    refine .inl ⟨s.complete_valid r, (statusRead_complete h he hr).trans ?_⟩
    cases i <;> rfl
  | error c =>
    refine .inr ⟨s.raise_valid c, ?_⟩
    simp only [State.conclude, State.raise_code, statusRead_raise h]
    cases c with
    | illegalCmd => exact absurd rfl (resultOf_error hr)
    | bsZero => exact .inl (by decide)
    | emptyDevice => exact .inr (.inl (by decide))
    | nonmultiple => exact .inr (.inr (by decide))

/-! ### Runs and steps (R20, R210) -/

theorem readRegister_setPending (r : Register) (s : State) (q : List HostAction) :
    (s.setPending q).readRegister r = s.readRegister r := by
  cases r <;> rfl

theorem execute_setPending (c : Byte) (s : State) (q : List HostAction) :
    execute c (s.setPending q) = andThen (execute c s) fun t => .next (t.setPending q) := by
  unfold execute executeIllegal
  cases decode c with
  | ok i => simp only [exec_eq_issue]; exact issue_setPending s q _
  | error e => exact issue_setPending s q _

/-- No action of the host looks at what the host has still to do. -/
theorem perform_setPending (a : HostAction) (s : State) (q : List HostAction) :
    perform a (s.setPending q) = andThen (perform a s) fun t => .next (t.setPending q) := by
  cases a with
  | devWrite offset b => simp only [perform, andThen, State.devWrite, State.setPending_devBytes]; rfl
  | transaction tr =>
    cases tr with
    | reset => rfl
    | read offset width =>
      simp only [perform, transact, hostRead, readRegister_setPending]
      cases admitRead offset width with
      | error e => rfl
      | ok r => cases hv : s.readRegister r <;> simp only [hv] <;> rfl
    | write offset width data =>
      simp only [perform, transact, hostWrite]
      cases admitWrite offset width with
      | error e => rfl
      | ok r =>
        cases r with
        | cmd => exact execute_setPending _ s q
        | status => rfl
        | inA => rfl
        | inB => rfl
        | out i => rfl

/-- No action of the host changes what it has still to do. -/
theorem perform_keeps_pending {a : HostAction} {s t : State} (h : perform a s = .next t) : t.pending = s.pending := by
  have hcomm := perform_setPending a s s.pending
  rw [State.setPending_self, h, andThen] at hcomm
  have hstate : t = t.setPending s.pending := Host.Outcome.next.inj hcomm
  rw [hstate, State.setPending_pending]

/-- One step of the machine with a list of actions loaded. -/
theorem step_setPending_cons (a : HostAction) (p : List HostAction) (s : State) :
    step (s.setPending (a :: p)) = andThen (perform a s) fun t => .next (t.setPending p) := by
  rw [step_pending (State.setPending_pending s _), State.setPending_setPending, perform_setPending]

/-- A run of the machine is its first step and the run from there. -/
theorem core_run_succ (k : Nat) (s : State) : core.run (k + 1) s = andThen (step s) (core.run k) := by
  refine (Host.Core.run.eq_2 core s k).trans ?_
  have hstep : core.step s = step s := rfl
  rw [hstep]
  cases step s <;> rfl

/-- Settles O57, by induction on the list: the first step performs its first action and leaves the rest loaded. -/
theorem runAgreesWithSteps : Obligations.RunAgreesWithSteps := by
  intro p
  induction p with
  | nil =>
    intro s hs
    have hload : s.setPending [] = s := hs ▸ s.setPending_self
    rw [hload]
    rfl
  | cons a p ih =>
    intro s hs
    rw [List.length_cons, core_run_succ, step_setPending_cons, runActions]
    cases hperform : perform a s with
    | next t => exact ih t ((perform_keeps_pending hperform).trans hs)
    | fault f => rfl
    | refused e => rfl

end Sys2Proof.Machine
end

section
/-! PROOFS of the memory statements (spec/20_memory.md): the block performs no memory access (R50), a command issued again
(R62), the sector count read back (R54), and the placement of an AREA result (R55, R57). -/

namespace Sys2Proof.Machine

/-! ### A command issued again (R62, R154, R176) -/

/-- Completing a second time with the same result writes what already stands. -/
theorem State.complete_complete (s : State) (r : List Byte) : (s.complete r).complete r = s.complete r := by
  have hstatus : ((s.complete r).complete r).status = (s.complete r).status := by
    refine status_ext (by simp) ?_ ((s.complete r).complete_err r) ((s.complete r).complete_code r) ?_
    · exact ((s.complete r).complete_valid r).trans (s.complete_valid r).symm
    · exact ((s.complete r).complete_outLen r).trans (s.complete_outLen r).symm
  calc (s.complete r).complete r
      = { s.complete r with out := outOf r, status := ((s.complete r).complete r).status } := by
        simp only [State.complete]
    _ = s.complete r := by rw [hstatus]; simp only [State.complete]

/-- Settles O39: a completed command computes the same result again, and a faulted block ignores it. -/
theorem repeatingACommandChangesNothing : Obligations.RepeatingACommandChangesNothing := by
  intro i s t h
  rcases exec_cases h with ⟨-, rfl⟩ | ⟨he, r, hr, rfl⟩ | ⟨-, c, -, rfl⟩
  · exact h
  · have herr : (s.complete r).err = false := (s.complete_err r).trans he
    rw [exec_eq_issue, State.complete_inA, State.complete_inB, hr, issue_unfaulted herr, State.conclude,
      State.complete_complete]
  · rw [exec_eq_issue, issue_faulted (s.raise_err c)]

/-! ### The sector count of a record (R54, R134, R135) -/

/-- Read little-endian, the four bytes of a number are the number. -/
theorem leValue_le32 (v : Word32) : leValue (le32 v) = v.toNat := by
  have := v.isLt
  simp only [le32, leValue, extract_toNat]
  omega

theorem leValue_sectorCount (n : Word64) : leValue (sectorCount n) = min n.toNat 4294967295 := by
  have hceil : cntCeil = 4294967295 := rfl
  unfold sectorCount
  split
  · next h =>
    have hsaturated : leValue cntSaturated = 4294967295 := by decide
    rw [hsaturated]
    omega
  · next h =>
    rw [leValue_le32, extract_toNat, Nat.pow_zero, Nat.div_one]
    omega

/-- Where the sector count stands in `OUT`, whatever follows the record (R137). -/
theorem outOf_recordOf_sectorCount (n : Word64) {tail : List Byte} (h : tail.length ≤ 2) :
    ((outOf (recordOf n ++ tail)).toList.drop 12).take 4 = sectorCount n := by
  rw [outOf_toList _ (by simp [recordOf_length]; omega)]
  obtain ⟨_, _, _, _, _, _, _, -, hcount, hrecord⟩ := recordOf_shape n
  simp [hrecord, hcount]

theorem maxLba_toNat (total bs : Word64) : (maxLba total bs).toNat = total.toNat / bs.toNat := BitVec.toNat_udiv

/-- The sector count of a completed BUILD, read back little-endian. -/
theorem leValue_complete_record (s : State) (total bs : Word64) :
    leValue (((s.complete (record total bs)).out.toList.drop 12).take 4) =
      min (total.toNat / bs.toNat) 4294967295 := by
  have hcount := outOf_recordOf_sectorCount (maxLba total bs) (tail := []) (by simp)
  rw [List.append_nil] at hcount
  rw [State.complete_out, record, hcount, leValue_sectorCount, maxLba_toNat]

/-- Settles O46: a BUILD that completes has written its record, and only the 8-bit rows of the register map lie in `OUT`. -/
theorem sectorCountReadsBackLittleEndian : Obligations.SectorCountReadsBackLittleEndian := by
  refine ⟨fun s he _ _ => ?_, fun s he hb hl hm => ?_, fun offset width data hlo hhi hw => ⟨?_, ?_⟩⟩
  · obtain ⟨t, ht, -⟩ := exec_frame .build s
    refine ⟨t, ht, fun hvalid => ?_⟩
    rcases exec_cases ht with ⟨hfaulted, -⟩ | ⟨-, r, hr, rfl⟩ | ⟨-, c, -, rfl⟩
    · simp [he] at hfaulted
    · rw [checked_ok hr]
      exact leValue_complete_record s s.inA s.inB
    · simp at hvalid
  · exact ⟨_, exec_build_completes he hb hl (.inl hm), by simp⟩
  · rw [← Bool.not_eq_true, read_admitted_iff]
    omega
  · rw [← Bool.not_eq_true, write_admitted_iff]
    omega

/-! ### The placement of an AREA result (R55, R57) -/

@[simp] theorem State.devWrite_devBytes (s : State) (offset : Nat) (b b' : DevBytes) :
    (s.devWrite offset b).devBytes b' = s.devBytes b' := by
  cases b' <;> rfl

/-- A slice of `OUT` written to the device, byte by byte. -/
theorem State.read_devWrite_outSlice (s : State) (offset : Nat) {first last : Fin 18} (h : first ≤ last) (a : Nat) :
    Memory.read (s.devWrite offset (.outSlice first last)).device a =
      if offset ≤ a ∧ a ≤ offset + (last.val - first.val) then s.out[first.val + (a - offset)]?
      else Memory.read s.device a := by
  have hle : first.val ≤ last.val := h
  rw [State.read_devWrite, State.devBytes_outSlice_length]
  by_cases hin : offset ≤ a ∧ a ≤ offset + (last.val - first.val)
  · rw [if_pos hin, if_pos (by omega), State.devBytes_outSlice_getElem? s (by omega)]
  · rw [if_neg hin, if_neg (by omega)]

/-- Every device byte after the two writes of an AREA result's placement, from any state. -/
theorem State.read_placeArea (s : State) (a : Nat) :
    Memory.read s.placeArea.device a =
      if 510 ≤ a ∧ a ≤ 511 then s.out[16 + (a - 510)]?
      else if 446 ≤ a ∧ a ≤ 461 then s.out[a - 446]?
      else Memory.read s.device a := by
  have hrecord := s.read_devWrite_outSlice recordOffset (first := 0) (last := 15) (by decide) a
  have hsignature := (s.devWrite recordOffset (.outSlice 0 15)).read_devWrite_outSlice signatureOffset
    (first := 16) (last := 17) (by decide) a
  rw [hrecord, State.devWrite_out] at hsignature
  simpa [State.placeArea, recordOffset, signatureOffset, -State.devWrite_device] using hsignature

/-- Settles O51: outside the record's and the signature's bytes, the zeros of the first block stay. -/
theorem areaPlacementOnZeroFilledBlock : Obligations.AreaPlacementOnZeroFilledBlock := by
  intro s hzero h16 h17
  refine ⟨fun a ha => ?_, fun i => ?_, fun a hlo hhi => ?_, ?_, ?_⟩ <;> rw [State.read_placeArea]
  · rw [if_neg (by omega), if_neg (by omega)]
    exact hzero a (by omega)
  · rw [if_neg (by omega), if_pos (by omega), Nat.add_sub_cancel_left]
    exact Vector.getElem?_eq_getElem _
  · rw [if_neg (by omega), if_neg (by omega)]
    exact hzero a (by omega)
  · exact congrArg some h16
  · exact congrArg some h17

/-! ### The device and the block's transactions (R50) -/

/-- The same state with other device contents. -/
def State.setDevice (s : State) (d : Memory) : State := { s with device := d }

theorem readRegister_setDevice (r : Register) (s : State) (d : Memory) :
    (s.setDevice d).readRegister r = s.readRegister r := by
  cases r <;> rfl

theorem issue_setDevice (s : State) (d : Memory) (r : Except FaultCode (List Byte)) :
    issue (s.setDevice d) r = andThen (issue s r) fun t => .next (t.setDevice d) :=
  issue_update_comm (f := (State.setDevice · d)) rfl
    (fun _ => by simp only [State.complete, State.setDevice]) (fun _ => by simp only [State.raise, State.setDevice]) r

theorem execute_setDevice (c : Byte) (s : State) (d : Memory) :
    execute c (s.setDevice d) = andThen (execute c s) fun t => .next (t.setDevice d) := by
  rcases execute_cases c s with ⟨i, hi, h⟩ | ⟨e, he, h⟩ <;> rw [h]
  · rw [execute_of_decode hi, exec_eq_issue, exec_eq_issue]
    exact issue_setDevice s d _
  · rw [execute, he]
    exact issue_setDevice s d _

/-- A transaction does the same whatever the device holds, and leaves those contents as they are. -/
theorem perform_transaction_setDevice {tr : Transaction} {s t : State} (h : perform (.transaction tr) s = .next t)
    (d : Memory) : perform (.transaction tr) (s.setDevice d) = .next (t.setDevice d) := by
  have hadmitted : tr.admitted = true := by
    by_contra hrefused
    obtain ⟨e, he⟩ := perform_of_not_admitted (a := .transaction tr) (Bool.eq_false_iff.2 hrefused) s
    simp [he] at h
  cases tr with
  | reset => cases h; rfl
  | read offset width =>
    obtain ⟨r, hr⟩ := read_admitted hadmitted
    obtain ⟨v, hv, hperform⟩ := perform_read hr s
    obtain ⟨v', hv', hperform'⟩ := perform_read hr (s.setDevice d)
    rw [readRegister_setDevice, hv] at hv'
    cases hv'
    cases hperform.symm.trans h
    exact hperform'
  | write offset width data =>
    rcases (write_admitted_iff offset width data).1 hadmitted with ⟨rfl, rfl⟩ | ⟨rfl, rfl⟩ | ⟨rfl, rfl⟩
    · rw [perform_write_cmd] at h ⊢
      rw [execute_setDevice, h, andThen]
    · cases h; rfl
    · cases h; rfl

/-- A transaction leaves the device as it is: it does so with the state's own contents put in. -/
theorem perform_transaction_device {tr : Transaction} {s t : State} (h : perform (.transaction tr) s = .next t) :
    t.device = s.device := by
  have hsame : t = t.setDevice s.device := Host.Outcome.next.inj (h.symm.trans (perform_transaction_setDevice h s.device))
  rw [hsame, State.setDevice]

/-- Settles O53: no transaction looks at the device, and so none changes it. -/
theorem transactionsNeitherReadNorWriteTheDevice : Obligations.TransactionsNeitherReadNorWriteTheDevice := by
  intro s t tr rest hp hst
  rw [step_pending hp] at hst
  refine ⟨fun a => ?_, fun d => ?_⟩
  · rw [perform_transaction_device hst, State.setPending_device]
  · have hpending : (s.setDevice d).pending = .transaction tr :: rest := hp
    exact (step_pending hpending).trans (perform_transaction_setDevice hst d)

end Sys2Proof.Machine
end

section
/-! PROOFS of the encoding statements (spec/30_encoding.md): the written form of transactions, the command byte and
its execution, and what statements and pseudo-statements stand for. -/

namespace Sys2Proof.Machine

/-! ### The written form of a transaction read back (R81) -/

theorem decText_ne_space (n : Nat) : ∀ c ∈ decText n, c ≠ ' ' := by
  rintro c hc rfl
  exact absurd (isDigit_of_mem_decText hc) (by decide)

theorem splitSpaces_render_write (offset width : Nat) (data : Word64) :
    splitSpaces (Transaction.write offset width data).render [] =
      [['W'], hexDigits 2 offset, decText width, hexDigits (width / 4) data.toNat] := by
  have hform : (Transaction.write offset width data).render =
      ['W'] ++ ' ' :: (hexDigits 2 offset ++ ' ' :: (decText width ++ ' ' :: hexDigits (width / 4) data.toNat)) := by
    simp [Transaction.render, decText]
  rw [hform, splitSpaces_word ['W'] (by simp), splitSpaces_word _ (hexDigits_ne_space _ _),
    splitSpaces_word _ (decText_ne_space _), splitSpaces_last _ (hexDigits_ne_space _ _)]
  rfl

theorem splitSpaces_render_read (offset width : Nat) :
    splitSpaces (Transaction.read offset width).render [] = [['R'], hexDigits 2 offset, decText width] := by
  have hform : (Transaction.read offset width).render =
      ['R'] ++ ' ' :: (hexDigits 2 offset ++ ' ' :: decText width) := by
    simp [Transaction.render, decText]
  rw [hform, splitSpaces_word ['R'] (by simp), splitSpaces_word _ (hexDigits_ne_space _ _),
    splitSpaces_last _ (decText_ne_space _)]
  rfl

/-- The reader's last test, that the line is the written form, holds of a written form. -/
theorem Transaction.parse_render {t : Transaction} (h : transactionOfWords (splitSpaces t.render []) = some t) :
    Transaction.parse t.render = some t := by
  rw [Transaction.parse, h]
  exact if_pos rfl

/-- A write is read back if its offset fits two hex digits, and its data the digits its width gives. -/
theorem parse_render_write {offset width count : Nat} {data : Word64} (hoffset : offset < 256)
    (hwidth : width / 4 = count + 1) (hdata : data.toNat < 16 ^ (count + 1)) :
    Transaction.parse (Transaction.write offset width data).render = some (.write offset width data) := by
  apply Transaction.parse_render
  rw [splitSpaces_render_write, hwidth]
  simp [transactionOfWords, readHex_hexDigits (count := 1) hoffset, readDec_decText, readHex_hexDigits hdata]

/-- A read is read back if its offset fits two hex digits. -/
theorem parse_render_read {offset : Nat} (hoffset : offset < 256) (width : Nat) :
    Transaction.parse (Transaction.read offset width).render = some (.read offset width) := by
  apply Transaction.parse_render
  rw [splitSpaces_render_read]
  simp [transactionOfWords, readHex_hexDigits (count := 1) hoffset, readDec_decText]

/-- Settles O56: the rows of the register map have offsets of two hex digits and widths that are whole digits. -/
theorem writtenTransactionsReadBack : Obligations.WrittenTransactionsReadBack := by
  intro t ht hdata
  cases t with
  | reset => exact Transaction.parse_render rfl
  | read offset width =>
    have hrow := (read_admitted_iff offset width).1 ht
    exact parse_render_read (by omega) width
  | write offset width data =>
    have hfits := hdata _ _ _ rfl
    rcases (write_admitted_iff offset width data).1 ht with ⟨rfl, rfl⟩ | ⟨rfl, rfl⟩ | ⟨rfl, rfl⟩
    · exact parse_render_write (count := 1) (by decide) rfl hfits
    · exact parse_render_write (count := 15) (by decide) rfl hfits
    · exact parse_render_write (count := 15) (by decide) rfl hfits

/-! ### Decoding the command byte (R70, R73 to R77) -/

theorem decode_encode (i : Instr) : decode (encode i) = .ok i := by
  cases i <;> rfl

/-- The byte of a command is its number in the opcode map (R73). -/
theorem encode_toNat_of_commandOfOpc {opc : Nat} {i : Instr} (h : commandOfOpc opc = .ok i) : opc = (encode i).toNat := by
  unfold commandOfOpc at h
  split at h <;> cases h <;> rfl

/-- A command byte is its two fields (R70). -/
theorem toNat_eq_fields (c : Byte) : c.toNat = 16 * (rsvField c).toNat + (opcField c).toNat := by
  have hc := c.isLt
  rw [rsvField, opcField, extract_toNat, extract_toNat]
  omega

theorem decode_eq_ok_iff (c : Byte) (i : Instr) : decode c = .ok i ↔ c = encode i := by
  constructor
  · intro h
    unfold decode at h
    split at h
    · cases h
    · next hrsv =>
      have hopc := encode_toNat_of_commandOfOpc h
      have hfields := toNat_eq_fields c
      rw [not_not.1 hrsv] at hfields
      exact BitVec.eq_of_toNat_eq (by simpa [hopc] using hfields)
  · rintro rfl
    exact decode_encode i

/-- The bytes of the five commands are 1 to 5 (R73). -/
theorem exists_encode_iff (c : Byte) : (∃ i, c = encode i) ↔ 1 ≤ c.toNat ∧ c.toNat ≤ 5 := by
  constructor
  · rintro ⟨i, rfl⟩
    cases i <;> decide
  · rintro ⟨hlo, hhi⟩
    have hfive : c = 1 ∨ c = 2 ∨ c = 3 ∨ c = 4 ∨ c = 5 := by bv_omega
    rcases hfive with rfl | rfl | rfl | rfl | rfl
    · exact ⟨.chsenc, rfl⟩
    · exact ⟨.chslast, rfl⟩
    · exact ⟨.scnt, rfl⟩
    · exact ⟨.build, rfl⟩
    · exact ⟨.area, rfl⟩

/-- The illegal bytes of R75: 0x00 and those from 0x06 on. -/
theorem decode_ne_ok_iff (c : Byte) : (∀ i, decode c ≠ .ok i) ↔ c.toNat = 0 ∨ 6 ≤ c.toNat := by
  simp only [ne_eq, decode_eq_ok_iff, ← not_exists, exists_encode_iff]
  omega

/-- Settles O1: decoding gives a command exactly on that command's byte. -/
theorem decodeEncodeAgree : Obligations.DecodeEncodeAgree :=
  ⟨decode_encode, fun c i => (decode_eq_ok_iff c i).1⟩

/-- Settles O2: five bytes are the encodings of R73, and the other four are decoded outright. -/
theorem specCommandBytesDecode : Obligations.SpecCommandBytesDecode :=
  ⟨decode_encode .chsenc, decode_encode .chslast, decode_encode .scnt, decode_encode .build, decode_encode .area,
    by decide, by decide, by decide, by decide⟩

/-! ### Executing the command byte (R74 to R76, R176) -/

theorem lowByte_toNat (data : Word64) : (data.extractLsb' 0 8).toNat = data.toNat % 256 := by
  rw [extract_toNat]
  omega

theorem execute_faulted {s : State} (he : s.err = true) (c : Byte) : execute c s = .next s := by
  rcases execute_cases c s with ⟨i, -, h⟩ | ⟨e, -, h⟩ <;> rw [h]
  · rw [exec_eq_issue, issue_faulted he]
  · exact issue_faulted he _

/-- An illegal byte takes ILLEGAL_CMD outside the faulted state (R75). -/
theorem execute_illegal {s : State} (he : s.err = false) {c : Byte} (hc : c.toNat = 0 ∨ 6 ≤ c.toNat) :
    ∃ t, execute c s = .next t ∧ FaultedWith s t 1 := by
  rcases execute_cases c s with ⟨i, hi, -⟩ | ⟨e, -, h⟩
  · exact absurd hi ((decode_ne_ok_iff c).2 hc i)
  · rw [h]
    exact issue_error_faultedWith he .illegalCmd

/-- Writing a command's byte to CMD runs the command. -/
theorem execute_lowByte_of_encode {data : Word64} {i : Instr} (h : data.toNat % 256 = (encode i).toNat) (s : State) :
    execute (data.extractLsb' 0 8) s = exec i s :=
  execute_of_decode ((decode_eq_ok_iff _ i).2 (BitVec.eq_of_toNat_eq ((lowByte_toNat data).trans h))) s

/-- Settles O6: RSV and OPC are the two hex digits of the low byte, which is a command's byte or an illegal one. -/
theorem executeFollowsOpcodeMap : Obligations.ExecuteFollowsOpcodeMap := by
  intro s data rest hp
  rw [step_pending hp, perform_write_cmd, ← State.setPending_err s rest]
  have hbyte : data.toNat % 256 = 16 * (data.toNat / 16 % 16) + data.toNat % 16 := by omega
  have hlow := lowByte_toNat data
  refine ⟨fun he => execute_faulted he _, fun he hrsv => ?_, fun he hrsv => ⟨fun hopc => ?_, fun hopc => ?_,
    fun hopc => ?_, fun hopc => ?_, fun hopc => ?_, fun hopc => ?_⟩⟩
  · exact execute_illegal he (by omega)
  iterate 5
    rw [hrsv, hopc] at hbyte
    exact execute_lowByte_of_encode hbyte _
  · exact execute_illegal he (by omega)

theorem decodeTableWord_isNone_iff {w : Nat} (hw : w < 256) :
    (decodeTableWord 8 w).isNone = true ↔ w = 0 ∨ 6 ≤ w := by
  have hbyte : (BitVec.ofNat 8 w).toNat = w := Nat.mod_eq_of_lt hw
  rw [← hbyte, ← decode_ne_ok_iff, hbyte, decodeTableWord, if_pos ⟨rfl, hw⟩]
  cases decode (BitVec.ofNat 8 w) <;> simp

/-- Of the 256 bytes, 0x00 and the 250 from 0x06 on are illegal. -/
theorem illegal_bytes_count : ((List.range 256).filter fun n => (decodeTableWord 8 n).isNone).length = 251 := by
  have hsplit : List.range 256 = List.range 6 ++ List.range' 6 250 := by
    rw [List.range_eq_range', List.range_eq_range', List.range'_append_1]
  have hlow : (List.range 6).filter (fun n => (decodeTableWord 8 n).isNone) = [0] := by decide
  have hhigh : (List.range' 6 250).filter (fun n => (decodeTableWord 8 n).isNone) = List.range' 6 250 :=
    List.filter_eq_self.2 fun n hn => by
      obtain ⟨hlo, hhi⟩ := List.mem_range'_1.1 hn
      exact (decodeTableWord_isNone_iff hhi).2 (.inr hlo)
  rw [hsplit, List.filter_append, hlow, hhigh, List.length_append, List.length_range', List.length_singleton]

/-- Settles O3: the bytes that are no command's byte take ILLEGAL_CMD. -/
theorem illegalBytesRaiseIllegalCmd : Obligations.IllegalBytesRaiseIllegalCmd := by
  refine ⟨fun c => ?_, illegal_bytes_count, fun s data rest hp he hdata => ?_⟩
  · have hzero : c = 0x00 ↔ c.toNat = 0 := by bv_omega
    rw [decode_ne_ok_iff, hzero]
  · rw [step_pending hp, perform_write_cmd]
    exact execute_illegal ((s.setPending_err rest).trans he) (by rwa [lowByte_toNat])

/-! ### Statements as transactions, and pseudo-statements (R81, R82) -/

theorem Stmt.transaction_admitted (st : Stmt) : st.transaction.admitted = true := by
  cases st with
  | wr64 r v => cases r <;> rfl
  | rd64 r => cases r <;> rfl
  | rd32Status => rfl
  | rd8Out i => exact (read_admitted_iff _ _).2 (by omega)
  | cmd i => rfl
  | cmdByte c => rfl
  | reset => rfl

theorem render_commandByte (c : Byte) :
    (Transaction.write 0x00 8 (c.setWidth 64)).render = "W 00 8 ".toList ++ hexDigits 2 c.toNat := by
  have hbyte : (c.setWidth 64).toNat = c.toNat := BitVec.toNat_setWidth_of_le (by decide)
  rw [Transaction.render, hbyte]
  rfl

/-- Settles O54: each written form is the rendering of the statement's transaction. -/
theorem statementsEncodeAsTransactions : Obligations.StatementsEncodeAsTransactions :=
  ⟨Stmt.transaction_admitted, fun _ => ⟨rfl, rfl⟩, fun _ => ⟨rfl, rfl⟩, ⟨rfl, rfl⟩, ⟨rfl, rfl⟩, ⟨rfl, rfl⟩,
    fun _ => ⟨rfl, rfl⟩, fun i => ⟨rfl, render_commandByte (encode i)⟩, fun c => ⟨rfl, render_commandByte c⟩, ⟨rfl, rfl⟩⟩

/-- RDOUT n reads the first n bytes of OUT, in order. -/
theorem expand_rdOut {n : Nat} (hlo : 1 ≤ n) (hhi : n ≤ 18) :
    (SourceStmt.rdOut n).expand = some (((List.finRange 18).take n).map .rd8Out) := by
  rw [SourceStmt.expand, if_pos ⟨hlo, hhi⟩]

/-- Settles O55: RUN by which commands take a second operand, RDOUT by its list of reads. -/
theorem pseudoStatementsExpand : Obligations.PseudoStatementsExpand := by
  refine ⟨fun m a hm => ?_, fun m a b hm => ?_, fun n hlo hhi => ⟨_, expand_rdOut hlo hhi, ?_, fun k hk => ?_⟩⟩
  · rcases hm with rfl | rfl | rfl <;> rfl
  · rcases hm with rfl | rfl <;> rfl
  · rw [List.length_map, List.length_take, List.length_finRange, Nat.min_eq_left hhi]
  · rw [List.getElem?_map, List.getElem?_take_of_lt hk, List.getElem?_eq_getElem (by simp)]
    simp

end Sys2Proof.Machine
end

section
/-! PROOFS of the program text (spec/30_encoding.md R80, R82): a line's words, its tokens, what they are read as, and the
lines of a text. -/

namespace Sys2Proof.Machine

/-! ### Words -/

/-- A non-empty run of word characters: what the reader takes for one token. -/
def IsWord (w : List Char) : Prop := (!w.isEmpty && w.all isWordChar) = true

theorem isWord_iff (w : List Char) : IsWord w ↔ w ≠ [] ∧ ∀ c ∈ w, isWordChar c = true := by
  simp [IsWord]

theorem IsWord.ne_nil {w : List Char} (hw : IsWord w) : w ≠ [] := ((isWord_iff w).1 hw).1

theorem IsWord.wordChar {w : List Char} (hw : IsWord w) : ∀ c ∈ w, isWordChar c = true := ((isWord_iff w).1 hw).2

theorem isWord_decText (n : Nat) : IsWord (decText n) := (isWord_iff _).2 ⟨decText_ne_nil n, isWordChar_decText n⟩

theorem isWord_mnemonicName (i : Instr) : IsWord (mnemonicName i) := by
  cases i <;> rfl

theorem isWord_regName (r : Reg64) : IsWord r.name := by
  cases r <;> rfl

theorem newline_notMem_word {w : List Char} (hw : IsWord w) : '\n' ∉ w :=
  fun h => absurd (hw.wordChar _ h) (by decide)

/-! ### The tokens of a line, part by part -/

theorem tokens_of_word {w : List Char} (hw : IsWord w) : tokens w [] = [w] := by
  rw [tokens_end hw.wordChar, flushWord_of_ne_nil hw.ne_nil]

theorem tokens_word_blank {w : List Char} (hw : IsWord w) (rest : List Char) :
    tokens (w ++ ' ' :: rest) [] = w :: tokens rest [] := by
  rw [tokens_blank hw.wordChar, flushWord_of_ne_nil hw.ne_nil, List.singleton_append]

theorem tokens_word_mark {w : List Char} (hw : IsWord w) {m : Char} (hm : isMark m = true) (rest : List Char) :
    tokens (w ++ m :: rest) [] = w :: [m] :: tokens rest [] := by
  rw [tokens_mark hw.wordChar hm, flushWord_of_ne_nil hw.ne_nil, List.singleton_append]

/-- A word, a comma and the blank that follows it. -/
theorem tokens_word_comma {w : List Char} (hw : IsWord w) (rest : List Char) :
    tokens (w ++ ',' :: ' ' :: rest) [] = w :: [','] :: tokens rest [] := by
  rw [tokens_word_mark hw rfl]
  rfl

/-- A comment is cut off wherever the reader stands in the line. -/
theorem tokens_comment (line comment w : List Char) :
    tokens (line ++ ';' :: comment) w = tokens line w := by
  induction line generalizing w with
  | nil => rfl
  | cons c line ih =>
    simp only [List.cons_append, tokens, ih]

/-! ### Reading the parts -/

theorem readReg64_name (r : Reg64) : readReg64 r.name = some r := by
  cases r <;> rfl

theorem readMnemonic_mnemonicName (i : Instr) : readMnemonic (mnemonicName i) = some i := by
  cases i <;> rfl

theorem readImm64_decText (v : Word64) : readImm64 (decText v.toNat) = some v := by
  rw [readImm64, readImm_decText, if_pos v.isLt]
  simp

theorem readImm64_hexText (v : Word64) : readImm64 (hexText 16 v.toNat) = some v := by
  rw [readImm64, readImm_hexText v.isLt, if_pos v.isLt]
  simp

theorem readCmdOperand_mnemonicName (i : Instr) : readCmdOperand (mnemonicName i) = some (.cmd i) := by
  rw [readCmdOperand, readMnemonic_mnemonicName]

theorem readCmdOperand_decText (c : Byte) : readCmdOperand (decText c.toNat) = some (.cmdByte c) := by
  simp [readCmdOperand, readMnemonic_decText, readImm_decText, c.isLt]

theorem readCmdOperand_hexText (c : Byte) : readCmdOperand (hexText 2 c.toNat) = some (.cmdByte c) := by
  simp [readCmdOperand, readMnemonic_hexText, readImm_hexText (count := 1) c.isLt, c.isLt]

theorem readIndex_decText (n : Nat) : readIndex (decText n) = if h : n < 18 then some ⟨n, h⟩ else none := by
  simp only [readIndex, readDec_decText]

theorem readImm64_decText_of_ge {n : Nat} (h : 2 ^ 64 ≤ n) : readImm64 (decText n) = none := by
  rw [readImm64, readImm_decText, if_neg (by omega)]
  rfl

theorem readCmdOperand_decText_of_ge {n : Nat} (h : 256 ≤ n) : readCmdOperand (decText n) = none := by
  rw [readCmdOperand, readMnemonic_decText, readImm_decText, if_neg (by omega)]
  rfl

theorem readIndex_decText_of_ge {n : Nat} (h : 18 ≤ n) : readIndex (decText n) = none := by
  rw [readIndex_decText, dif_neg (by omega)]

/-! ### The line of each form: its tokens, and what they are read as -/

/-- A line the reader takes for one statement, and that is a line: no end of line stands in it. -/
def ReadsAs (line : List Char) (s : SourceStmt) : Prop :=
  parseTokens (tokens line []) = some s ∧ '\n' ∉ line

/-- The operands of a line: words with a comma and a blank between them. -/
def operandText (ws : List (List Char)) : List Char := [',', ' '].intercalate ws

@[simp] theorem operandText_singleton (w : List Char) : operandText [w] = w := List.intercalate_singleton

@[simp] theorem operandText_cons_cons (w v : List Char) (ws : List (List Char)) :
    operandText (w :: v :: ws) = w ++ ',' :: ' ' :: operandText (v :: ws) := by
  simp [operandText]

theorem tokens_operandText {ws : List (List Char)} (hws : ∀ w ∈ ws, IsWord w) :
    tokens (operandText ws) [] = ws.intersperse [','] := by
  induction ws with
  | nil => rfl
  | cons w ws ih =>
    have hw : IsWord w := hws w List.mem_cons_self
    cases ws with
    | nil => rw [operandText_singleton, tokens_of_word hw, List.intersperse_singleton]
    | cons v ws =>
      rw [operandText_cons_cons, tokens_word_comma hw, ih fun u hu => hws u (List.mem_cons_of_mem w hu),
        List.intersperse_cons_cons]

theorem newline_notMem_operandText {ws : List (List Char)} (hws : ∀ w ∈ ws, IsWord w) : '\n' ∉ operandText ws := by
  induction ws with
  | nil => exact List.not_mem_nil
  | cons w ws ih =>
    have hw := newline_notMem_word (hws w List.mem_cons_self)
    cases ws with
    | nil => rwa [operandText_singleton]
    | cons v ws =>
      have hrest := ih fun u hu => hws u (List.mem_cons_of_mem w hu)
      simp [hw, hrest]

/-- A line of a keyword and its operands. -/
theorem readsAs_keywordLine {line : List Char} {s : SourceStmt} (k : List Char) (ws : List (List Char))
    (hline : line = k ++ ' ' :: operandText ws) (hk : IsWord k) (hws : ∀ w ∈ ws, IsWord w)
    (h : parseTokens (k :: ws.intersperse [',']) = some s) : ReadsAs line s := by
  subst hline
  refine ⟨by rw [tokens_word_blank hk, tokens_operandText hws, h], ?_⟩
  simp [newline_notMem_word hk, newline_notMem_operandText hws]

theorem readsAs_wr64 (r : Reg64) (v : Word64) : ReadsAs (SourceStmt.plain (.wr64 r v)).text (.plain (.wr64 r v)) :=
  readsAs_keywordLine "WR64".toList [r.name, decText v.toNat] (by simp [Stmt.text_wr64]) rfl
    (by simp [isWord_regName, isWord_decText]) (by simp [parseTokens, readReg64_name, readImm64_decText])

theorem readsAs_rd64 (r : Reg64) : ReadsAs (SourceStmt.plain (.rd64 r)).text (.plain (.rd64 r)) :=
  readsAs_keywordLine "RD64".toList [r.name] (by simp [Stmt.text_rd64]) rfl (by simp [isWord_regName])
    (by simp [parseTokens, readReg64_name])

theorem readsAs_rd32Status : ReadsAs (SourceStmt.plain .rd32Status).text (.plain .rd32Status) :=
  ⟨rfl, by simp [Stmt.text_rd32Status]⟩

theorem readsAs_rd8Out (i : Fin 18) : ReadsAs (SourceStmt.plain (.rd8Out i)).text (.plain (.rd8Out i)) := by
  have hi := isWord_decText i.val
  have hkeyword : IsWord "RD8".toList := rfl
  have hout : IsWord "OUT".toList := rfl
  have hline : (SourceStmt.plain (.rd8Out i)).text =
      "RD8".toList ++ ' ' :: ("OUT".toList ++ '[' :: (decText i.val ++ [']'])) := rfl
  refine hline ▸ ⟨?_, by simp [newline_notMem_word hi]⟩
  rw [tokens_word_blank hkeyword, tokens_word_mark hout rfl, tokens_word_mark hi rfl]
  simp [parseTokens, tokens, flushWord, readIndex_decText]

theorem readsAs_cmd (i : Instr) : ReadsAs (SourceStmt.plain (.cmd i)).text (.plain (.cmd i)) :=
  readsAs_keywordLine "CMD".toList [mnemonicName i] (by simp [Stmt.text_cmd]) rfl (by simp [isWord_mnemonicName])
    (by simp [parseTokens, readCmdOperand_mnemonicName])

theorem readsAs_cmdByte (c : Byte) : ReadsAs (SourceStmt.plain (.cmdByte c)).text (.plain (.cmdByte c)) :=
  readsAs_keywordLine "CMD".toList [decText c.toNat] (by simp [Stmt.text_cmdByte]) rfl (by simp [isWord_decText])
    (by simp [parseTokens, readCmdOperand_decText])

theorem readsAs_reset : ReadsAs (SourceStmt.plain .reset).text (.plain .reset) :=
  ⟨rfl, by simp [Stmt.text_reset]⟩

theorem SourceStmt.text_run (m : Instr) (a : Word64) :
    (SourceStmt.run m a).text = "RUN ".toList ++ mnemonicName m ++ ", ".toList ++ decText a.toNat := rfl

theorem SourceStmt.text_runPair (m : Instr) (a b : Word64) :
    (SourceStmt.runPair m a b).text =
      "RUN ".toList ++ mnemonicName m ++ ", ".toList ++ decText a.toNat ++ ", ".toList ++ decText b.toNat := rfl

theorem SourceStmt.text_rdOut (n : Nat) : (SourceStmt.rdOut n).text = "RDOUT ".toList ++ decText n := rfl

theorem readsAs_run (m : Instr) (a : Word64) : ReadsAs (SourceStmt.run m a).text (.run m a) :=
  readsAs_keywordLine "RUN".toList [mnemonicName m, decText a.toNat] (by simp [SourceStmt.text_run]) rfl
    (by simp [isWord_mnemonicName, isWord_decText])
    (by simp [parseTokens, readMnemonic_mnemonicName, readImm64_decText])

theorem readsAs_runPair (m : Instr) (a b : Word64) : ReadsAs (SourceStmt.runPair m a b).text (.runPair m a b) :=
  readsAs_keywordLine "RUN".toList [mnemonicName m, decText a.toNat, decText b.toNat]
    (by simp [SourceStmt.text_runPair]) rfl (by simp [isWord_mnemonicName, isWord_decText])
    (by simp [parseTokens, readMnemonic_mnemonicName, readImm64_decText])

theorem readsAs_rdOut (n : Nat) : ReadsAs (SourceStmt.rdOut n).text (.rdOut n) :=
  readsAs_keywordLine "RDOUT".toList [decText n] (by simp [SourceStmt.text_rdOut]) rfl (by simp [isWord_decText])
    (by simp [parseTokens, readDec_decText])

theorem SourceStmt.readsAs_text (s : SourceStmt) : ReadsAs s.text s := by
  cases s with
  | plain st =>
    cases st with
    | wr64 r v => exact readsAs_wr64 r v
    | rd64 r => exact readsAs_rd64 r
    | rd32Status => exact readsAs_rd32Status
    | rd8Out i => exact readsAs_rd8Out i
    | cmd i => exact readsAs_cmd i
    | cmdByte c => exact readsAs_cmdByte c
    | reset => exact readsAs_reset
  | run m a => exact readsAs_run m a
  | runPair m a b => exact readsAs_runPair m a b
  | rdOut n => exact readsAs_rdOut n

/-! ### The lines of a text -/

/-- A text's lines are its statements' lines, and the empty one after the last end of line. -/
theorem linesOf_programText (p : List SourceStmt) : linesOf (programText p) [] = p.map SourceStmt.text ++ [[]] := by
  induction p with
  | nil => rfl
  | cons s p ih =>
    obtain ⟨-, hnewline⟩ := s.readsAs_text
    rw [programText, linesOf_line hnewline, ih]
    rfl

theorem parseLines_cons {line : List Char} {s : SourceStmt} (h : ReadsAs line s) {lines : List (List Char)}
    {p : List SourceStmt} (hlines : parseLines lines = some p) : parseLines (line :: lines) = some (s :: p) := by
  obtain ⟨hparse, -⟩ := h
  rw [parseLines]
  cases htokens : tokens line [] with
  | nil => rw [htokens] at hparse; cases hparse
  | cons t ts => rw [htokens] at hparse; simp only [hparse, hlines]

theorem parseLines_texts (p : List SourceStmt) : parseLines (p.map SourceStmt.text ++ [[]]) = some p := by
  induction p with
  | nil => rfl
  | cons s p ih => exact parseLines_cons s.readsAs_text ih

theorem parseProgram_programText (p : List SourceStmt) : parseProgram (programText p) = expandAll p := by
  rw [parseProgram, linesOf_programText, parseLines_texts]

/-- Settles O59: every statement's line reads as the statement, and the rest is how numbers and comments are read. -/
theorem programTextReadsBack : Obligations.ProgramTextReadsBack :=
  ⟨parseProgram_programText, fun v => ⟨readImm64_decText v, readImm64_hexText v⟩,
    fun c => ⟨readCmdOperand_decText c, readCmdOperand_hexText c⟩,
    fun _ => ⟨readImm64_decText_of_ge, readCmdOperand_decText_of_ge, readIndex_decText_of_ge⟩,
    fun line comment _ => tokens_comment line comment []⟩

end Sys2Proof.Machine
end

section
/-! PROOFS of the Geometry Encoder (spec/40_geometry_encoder.md): the fields of a CHS tuple and their packing (R102 to R105),
decoding (R106), the period of `Encode` (R107), its values (R108), and CHSENC (R110). -/

namespace Sys2Proof.Machine

/-! ### The fields of an LBA's CHS tuple (R102, R103) -/

theorem chsOf_cyl_toNat (lba : Word64) : (chsOf lba).cyl.toNat = lba.toNat / 16065 % 1024 := by
  rw [chsOf, BitVec.toNat_ofNat, cylOf_eq, Nat.mod_mod]

/-- The reduction mod 256 of the head is a no-op. -/
theorem chsOf_head_toNat (lba : Word64) : (chsOf lba).head.toNat = lba.toNat / 63 % 255 := by
  rw [chsOf, BitVec.toNat_ofNat, headOf_eq]
  omega

/-- The reduction mod 64 of the sector is a no-op. -/
theorem chsOf_sec_toNat (lba : Word64) : (chsOf lba).sec.toNat = lba.toNat % 63 + 1 := by
  rw [chsOf, BitVec.toNat_ofNat, secOf_eq]
  omega

/-- Cylinder, head and sector are the digits of an LBA modulo 16450560 = 1024 * 255 * 63 (R106). -/
theorem mod_period_eq_chsOf (lba : Word64) :
    lba.toNat % 16450560 =
      (chsOf lba).cyl.toNat * 16065 + (chsOf lba).head.toNat * 63 + ((chsOf lba).sec.toNat - 1) := by
  rw [chsOf_cyl_toNat, chsOf_head_toNat, chsOf_sec_toNat]
  omega

/-- Two tuples with equal fields, as numbers. -/
theorem Chs.ext_toNat {t u : Chs} (hcyl : t.cyl.toNat = u.cyl.toNat) (hhead : t.head.toNat = u.head.toNat)
    (hsec : t.sec.toNat = u.sec.toNat) : t = u := by
  obtain ⟨cyl, head, sec⟩ := t
  rw [Chs.mk.injEq]
  exact ⟨BitVec.eq_of_toNat_eq hcyl, BitVec.eq_of_toNat_eq hhead, BitVec.eq_of_toNat_eq hsec⟩

/-- A CHS tuple holds exactly what an LBA is modulo the period. -/
theorem chsOf_eq_iff (a b : Word64) : chsOf a = chsOf b ↔ a.toNat % 16450560 = b.toNat % 16450560 := by
  constructor
  · intro h
    rw [mod_period_eq_chsOf, mod_period_eq_chsOf, h]
  · intro h
    apply Chs.ext_toNat
    · rw [chsOf_cyl_toNat, chsOf_cyl_toNat]
      omega
    · rw [chsOf_head_toNat, chsOf_head_toNat]
      omega
    · rw [chsOf_sec_toNat, chsOf_sec_toNat]
      omega

/-- Settles O14: each field's value without the reductions, and its range from that. -/
theorem chsFieldsStayInRange : Obligations.ChsFieldsStayInRange := by
  intro lba
  have hsec : (chsOf lba).sec.toNat ≤ 63 := Nat.le_of_lt_succ (chsOf lba).sec.isLt
  have hcyl : (chsOf lba).cyl.toNat ≤ 1023 := Nat.le_of_lt_succ (chsOf lba).cyl.isLt
  exact ⟨hcyl, chsOf_head_le lba, one_le_chsOf_sec lba, hsec, chsOf_cyl_toNat lba, chsOf_head_toNat lba,
    chsOf_sec_toNat lba⟩

/-! ### Packing (R104, R105) -/

/-- The byte of the cylinder's high bits and the sector. -/
theorem packedCylSec_toNat (t : Chs) :
    (t.cyl.extractLsb' 8 2 ++ t.sec : BitVec (2 + 6)).toNat = t.cyl.toNat / 256 * 64 + t.sec.toNat := by
  have hcyl := t.cyl.isLt
  rw [append_toNat, extract_toNat]
  omega

/-- The byte of the cylinder's low bits. -/
theorem packedCylLow_toNat (t : Chs) : (t.cyl.extractLsb' 0 8).toNat = t.cyl.toNat % 256 := by
  rw [extract_toNat]
  omega

/-- Settles O13: the packed bytes of the tuple, and the tuple's fields. -/
theorem encodePacksChsFields : Obligations.EncodePacksChsFields := by
  intro lba
  refine ⟨_, _, _, rfl, ?_, ?_, ?_⟩
  · rw [chsOf_head_toNat]
    omega
  · rw [packedCylSec_toNat, chsOf_cyl_toNat, chsOf_sec_toNat]
    omega
  · rw [packedCylLow_toNat, chsOf_cyl_toNat]

/-! ### Decoding (R106) -/

theorem decodeChs_head (b0 b1 b2 : Byte) : (decodeChs b0 b1 b2).head = b0 := rfl

theorem decodeChs_sec_toNat (b0 b1 b2 : Byte) : (decodeChs b0 b1 b2).sec.toNat = b1.toNat % 64 := by
  rw [decodeChs, extract_toNat]
  omega

theorem decodeChs_cyl_toNat (b0 b1 b2 : Byte) :
    (decodeChs b0 b1 b2).cyl.toNat = b1.toNat / 64 * 256 + b2.toNat := by
  have hb1 := b1.isLt
  rw [decodeChs, append_toNat, extract_toNat]
  omega

/-- Settles O15: decoding undoes the packing, so what the tuple says of its LBA the decoded bytes say. -/
theorem decodingRecoversTheLba : Obligations.DecodingRecoversTheLba := by
  refine ⟨fun b0 b1 b2 => ⟨decodeChs_head b0 b1 b2, decodeChs_sec_toNat b0 b1 b2, decodeChs_cyl_toNat b0 b1 b2⟩,
    fun lba => ⟨_, _, _, rfl, ?_⟩⟩
  rw [decodeChs_packChs]
  refine ⟨rfl, chsOf_cyl_toNat lba, ?_, ?_, mod_period_eq_chsOf lba⟩
  · rw [chsOf_head_toNat]
    omega
  · rw [chsOf_sec_toNat]
    omega

/-! ### The period of `Encode` (R107) -/

/-- Packing loses nothing: the tuple can be decoded. -/
theorem packChs_injective : Function.Injective packChs := by
  intro t u h
  simp only [packChs, List.cons.injEq, and_true] at h
  obtain ⟨hhead, hcylSec, hcylLow⟩ := h
  rw [← decodeChs_packChs t, hhead, hcylSec, hcylLow, decodeChs_packChs]

theorem encodeChs_eq_iff (a b : Word64) : encodeChs a = encodeChs b ↔ a.toNat % 16450560 = b.toNat % 16450560 := by
  rw [encodeChs, encodeChs, packChs_injective.eq_iff, chsOf_eq_iff]

/-- Settles O17: packing and the tuple both keep exactly the LBA modulo the period. -/
theorem encodeSeparatesOnePeriod : Obligations.EncodeSeparatesOnePeriod := encodeChs_eq_iff

theorem ofNat_mod_period_toNat (lba : Word64) :
    (BitVec.ofNat 64 (lba.toNat % 16450560)).toNat = lba.toNat % 16450560 := by
  rw [BitVec.toNat_ofNat]
  omega

theorem encodeChs_mod_period (lba : Word64) : encodeChs lba = encodeChs (BitVec.ofNat 64 (lba.toNat % 16450560)) := by
  rw [encodeChs_eq_iff, ofNat_mod_period_toNat, Nat.mod_mod]

/-- Settles O16: the smaller LBA is the remainder. -/
theorem encodeIsPeriodic : Obligations.EncodeIsPeriodic := by
  refine ⟨encodeChs_mod_period, fun lba h => ⟨_, ?_, (encodeChs_mod_period lba).symm⟩⟩
  rw [ofNat_mod_period_toNat]
  omega

/-- Settles O18: the source's values, the saturated tuple among them. -/
theorem encodeSourceValues : Obligations.EncodeSourceValues :=
  ⟨encodeChs_zero, by decide, by decide, chsSaturated_eq_encodeChs.symm⟩

/-! ### CHSENC (R110) -/

theorem exec_chsenc_completes {s : State} (he : s.err = false) :
    exec .chsenc s = .next (s.complete (encodeChs s.inA)) := by
  rw [exec_eq_issue, issue_unfaulted he]
  rfl

/-- Settles O26: CHSENC has no fault to take, and its corner cases are evaluated. -/
theorem chsencWritesPackedChs : Obligations.ChsencWritesPackedChs := by
  refine ⟨fun s he => ?_, fun s he => ?_, rfl, encodeChs_zero, by decide, by decide, by decide, by decide,
    chsSaturated_eq_encodeChs.symm, by decide, by decide, by decide, by decide, by decide⟩
  · obtain ⟨hout, hrest⟩ := completedWith_complete s (encodeChs s.inA) (by rw [encodeChs_length]; omega)
    have hlen : (s.complete (encodeChs s.inA)).outLen = 3 := by rw [State.complete_outLen, encodeChs_length]; rfl
    exact ⟨_, exec_chsenc_completes he, hout, hlen, s.complete_valid _, hout, hrest⟩
  · rw [exec_eq_issue, issue_faulted he]

end Sys2Proof.Machine
end

section
/-! PROOFS of the Partition Record Builder (spec/41_record_builder.md): the last CHS (R132, R133), the sector count (R134, R135),
the record's layout (R137 to R139), the precondition check (R141), and the commands CHSLAST, SCNT, BUILD and AREA (R150 to R154). -/

namespace Sys2Proof.Machine

/-! ### The last CHS (R132, R133) -/

theorem lastChs_of_ge {n : Word64} (h : 16450559 ≤ n.toNat) : lastChs n = chsSaturated := if_pos h

/-- From a block count of at least 1, the last block's LBA is computed without a wrap. -/
theorem sub_one_eq_ofNat {n : Word64} (h : 1 ≤ n.toNat) : n - 1 = BitVec.ofNat 64 (n.toNat - 1) := by
  apply BitVec.eq_of_toNat_eq
  rw [BitVec.toNat_sub_of_le (by simpa [BitVec.le_def] using h), BitVec.toNat_ofNat, Nat.mod_eq_of_lt (by omega)]
  rfl

theorem lastChs_of_lt {n : Word64} (h : 1 ≤ n.toNat) (hlt : n.toNat < 16450559) :
    lastChs n = encodeChs (BitVec.ofNat 64 (n.toNat - 1)) := by
  rw [lastChs, if_neg (Nat.not_le.2 hlt), sub_one_eq_ofNat h]

/-- Below the ceiling the last block's LBA and 16450559 lie in one period of `Encode` and differ, so their bytes differ. -/
theorem lastChs_eq_saturated_iff {n : Word64} (h : 1 ≤ n.toNat) : lastChs n = chsSaturated ↔ 16450559 ≤ n.toNat := by
  refine ⟨fun heq => ?_, lastChs_of_ge⟩
  by_contra hlt
  rw [lastChs_of_lt h (by omega), chsSaturated_eq_encodeChs, encodeChs_eq_iff, BitVec.toNat_ofNat,
    Nat.mod_eq_of_lt (show n.toNat - 1 < 2 ^ 64 by omega)] at heq
  have hceil : (16450559 : Word64).toNat = 16450559 := rfl
  omega

/-- Settles O19: on either side of the ceiling, the encoder's input is the arm of the multiplexer. -/
theorem lastChsIsMultiplexedEncode : Obligations.LastChsIsMultiplexedEncode := by
  refine ⟨fun n h => ?_, lastChs_of_ge (by decide), by decide, by decide⟩
  by_cases hceil : 16450559 ≤ n.toNat
  · rw [if_pos hceil, lastChs_of_ge hceil, chsSaturated_eq_encodeChs]
  · rw [if_neg hceil, lastChs_of_lt h (by omega)]

/-- Settles O20: the saturated bytes are exact to the ceiling, and below it the encoder takes the last block's LBA. -/
theorem lastChsSaturatesExactlyAtCeiling : Obligations.LastChsSaturatesExactlyAtCeiling :=
  fun _ h => ⟨lastChs_eq_saturated_iff h, lastChs_of_lt h⟩

/-! ### The sector count (R134, R135, R139) -/

/-- Settles O21: each byte is a bit field of the number. -/
theorem le32IsLittleEndian : Obligations.Le32IsLittleEndian := by
  intro v
  have hv := v.isLt
  refine ⟨_, _, _, _, rfl, ?_, ?_, ?_, ?_, leValue_le32 v⟩ <;> rw [extract_toNat] <;> omega

theorem sectorCount_of_ge {n : Word64} (h : 4294967295 ≤ n.toNat) : sectorCount n = cntSaturated := if_pos h

theorem sectorCount_of_lt {n : Word64} (h : n.toNat < 4294967295) : sectorCount n = le32 (BitVec.ofNat 32 n.toNat) := by
  have hlow : n.extractLsb' 0 32 = BitVec.ofNat 32 n.toNat := by
    apply BitVec.eq_of_toNat_eq
    rw [extract_toNat, BitVec.toNat_ofNat, Nat.pow_zero, Nat.div_one]
  rw [← hlow]
  exact if_neg (Nat.not_le.2 h)

/-- Below the ceiling the field holds the count itself. -/
theorem leValue_sectorCount_of_lt {n : Word64} (h : n.toNat < 4294967295) : leValue (sectorCount n) = n.toNat := by
  rw [leValue_sectorCount]
  omega

theorem sectorCount_zero : sectorCount 0 = [0x00, 0x00, 0x00, 0x00] := by decide

/-- Settles O22: the two arms, and their values around the boundary. -/
theorem sectorCountSaturates : Obligations.SectorCountSaturates :=
  ⟨fun n => ⟨sectorCount_length n, sectorCount_of_ge, fun h => ⟨sectorCount_of_lt h, leValue_sectorCount_of_lt h⟩⟩,
    by decide, by decide, sectorCount_zero⟩

/-- Settles O24: the ceiling of the last CHS lies below that of the sector count. -/
theorem threeSaturationOutcomes : Obligations.ThreeSaturationOutcomes := by
  refine fun n h => ⟨fun hlt => ⟨fun hsaturated => ?_, ?_⟩, fun hge hlt => ⟨?_, ?_⟩, fun hge => ⟨?_, ?_⟩⟩
  · exact absurd ((lastChs_eq_saturated_iff h).1 hsaturated) (by omega)
  · exact leValue_sectorCount_of_lt (by omega)
  · exact lastChs_of_ge hge
  · exact leValue_sectorCount_of_lt hlt
  · exact lastChs_of_ge (by omega)
  · exact sectorCount_of_ge hge

/-! ### The record (R137, R138) -/

/-- Settles O23: the record byte by byte, and the bytes of its fields. -/
theorem recordHasSpecLayout : Obligations.RecordHasSpecLayout := by
  intro total bs _ _
  obtain ⟨_, _, _, _, _, _, _, hchs, hcount, hrecord⟩ := recordOf_shape (maxLba total bs)
  rw [← maxLba_eq, record, hrecord, hchs, hcount, encodeChs_zero, le32_zero]
  exact ⟨rfl, rfl, rfl, rfl, rfl, rfl, rfl, rfl, rfl⟩

/-- Where the last CHS stands in `OUT`, whatever follows the record (R137). -/
theorem outOf_recordOf_lastChs (n : Word64) {tail : List Byte} (h : tail.length ≤ 2) :
    ((outOf (recordOf n ++ tail)).toList.drop 5).take 3 = lastChs n := by
  rw [outOf_toList _ (by simp [recordOf_length]; omega)]
  obtain ⟨_, _, _, _, _, _, _, hchs, -, hrecord⟩ := recordOf_shape n
  simp [hrecord, hchs]

/-! ### A result behind the precondition check, at either value of the open parameter (R141) -/

theorem issue_checked_faults_of_bsZero (reject : Bool) {s : State} (he : s.err = false) (hb : s.inB = 0) (r : List Byte) :
    ∃ t, issue s (checked reject s.inA s.inB r) = .next t ∧ FaultedWith s t 2 := by
  rw [checked_of_some (buildCheck_bsZero reject hb)]
  exact issue_error_faultedWith he .bsZero

theorem issue_checked_faults_of_emptyDevice (reject : Bool) {s : State} (he : s.err = false) (hb : s.inB ≠ 0)
    (hl : s.inA.toNat < s.inB.toNat) (r : List Byte) :
    ∃ t, issue s (checked reject s.inA s.inB r) = .next t ∧ FaultedWith s t 3 := by
  rw [checked_of_some (buildCheck_emptyDevice reject hb hl)]
  exact issue_error_faultedWith he .emptyDevice

/-- A non-multiple is answered under both values of the parameter, and takes NONMULTIPLE if it is true. -/
theorem issue_checked_answers_nonmultiple (reject : Bool) {s : State} (he : s.err = false) (hb : s.inB ≠ 0)
    (hl : s.inB.toNat ≤ s.inA.toNat) (hm : s.inA.toNat % s.inB.toNat ≠ 0) (r : List Byte) :
    ∃ t, issue s (checked reject s.inA s.inB r) = .next t ∧ (reject = true → FaultedWith s t 4) := by
  cases reject with
  | true =>
    obtain ⟨t, ht, hfaulted⟩ := issue_checked_faults_of_nonmultiple he hb hl hm r
    exact ⟨t, ht, fun _ => hfaulted⟩
  | false => exact ⟨_, issue_unfaulted he _, nofun⟩

/-- What the check lets through is delivered. -/
theorem issue_checked_of_accepted {reject : Bool} {s : State} (he : s.err = false) (hb : s.inB ≠ 0)
    (hl : s.inB.toNat ≤ s.inA.toNat) (hm : s.inA.toNat % s.inB.toNat = 0 ∨ reject = false) (r : List Byte) :
    issue s (checked reject s.inA s.inB r) = .next (s.complete r) := by
  rw [checked_of_none (buildCheck_none hb hl hm), issue_unfaulted he, State.conclude]

theorem exec_build_eq_issue_checked (s : State) :
    exec .build s = issue s (checked Config.rejectNonmultiple s.inA s.inB (record s.inA s.inB)) := rfl

theorem exec_area_eq_issue_checked (s : State) :
    exec .area s = issue s (checked Config.rejectNonmultiple s.inA s.inB (area s.inA s.inB)) := rfl

theorem completedWith_record (s : State) (total bs : Word64) :
    CompletedWith s (s.complete (record total bs)) (record total bs) :=
  completedWith_complete s _ (by rw [record_length]; omega)

theorem completedWith_area (s : State) (total bs : Word64) :
    CompletedWith s (s.complete (area total bs)) (area total bs) :=
  completedWith_complete s _ (by rw [area_length])

/-- Settles O25: the four outcomes of the check, each for any result behind it. -/
theorem buildCheckFaultsInOrder : Obligations.BuildCheckFaultsInOrder := by
  intro reject s he
  simp only [execBuildWith_eq_issue_checked, execAreaWith_eq_issue_checked, ← maxLba_eq]
  refine ⟨fun hb => ?_, fun hb hl => ?_, fun hb hl hreject hm => ?_, fun hb hl hm => ?_⟩
  · exact ⟨issue_checked_faults_of_bsZero reject he hb _, issue_checked_faults_of_bsZero reject he hb _⟩
  · exact ⟨issue_checked_faults_of_emptyDevice reject he hb hl _, issue_checked_faults_of_emptyDevice reject he hb hl _⟩
  · subst hreject
    exact ⟨issue_checked_faults_of_nonmultiple he hb hl hm _, issue_checked_faults_of_nonmultiple he hb hl hm _⟩
  · exact ⟨⟨_, issue_checked_of_accepted he hb hl hm.symm _, completedWith_record s _ _⟩,
      ⟨_, issue_checked_of_accepted he hb hl hm.symm _, completedWith_area s _ _⟩⟩

/-! ### CHSLAST and SCNT (R150, R151) -/

/-- What a completion with a result of length `n` leaves, its zeros and `OUT_LEN` in terms of `n`. -/
theorem complete_of_length (s : State) {r : List Byte} {n : Nat} (hlen : r.length = n) (hn : n ≤ 18) :
    (s.complete r).out.toList = r ++ List.replicate (18 - n) 0 ∧ (s.complete r).outLen = BitVec.ofNat 5 n ∧
      (s.complete r).valid = true ∧ CompletedWith s (s.complete r) r := by
  subst hlen
  exact ⟨outOf_toList r hn, s.complete_outLen r, s.complete_valid r, completedWith_complete s r hn⟩

theorem exec_chslast_completes {s : State} (he : s.err = false) (ha : s.inA ≠ 0) :
    exec .chslast s = .next (s.complete (lastChs s.inA)) := by
  rw [exec_eq_issue, issue_unfaulted he, resultOf, chslastResult, if_neg ha, State.conclude]

theorem exec_chslast_faults {s : State} (he : s.err = false) (ha : s.inA = 0) :
    exec .chslast s = .next (s.raise .emptyDevice) := by
  rw [exec_eq_issue, issue_unfaulted he, resultOf, chslastResult, if_pos ha, State.conclude]

theorem exec_scnt_completes {s : State} (he : s.err = false) :
    exec .scnt s = .next (s.complete (sectorCount s.inA)) := by
  rw [exec_eq_issue, issue_unfaulted he, resultOf, scntResult, State.conclude]

/-- One below its ceiling the last CHS is still exact (R150, R152). -/
theorem lastChs_16450558 : lastChs 16450558 = [0xFE, 0xFD, 0xFF] := by decide

/-- One below its ceiling the sector count is still exact (R151, R152). -/
theorem sectorCount_4294967294 : sectorCount 4294967294 = [0xFE, 0xFF, 0xFF, 0xFF] := by decide

/-- Settles O27: the count 0 is the one fault; the corner cases are evaluated. -/
theorem chslastWritesLastChs : Obligations.ChslastWritesLastChs := by
  refine ⟨fun s he ha => ?_, fun s he ha => ?_, rfl, by decide, by decide, by decide, by decide, lastChs_16450558,
    lastChs_of_ge (by decide), lastChs_of_ge (by decide), lastChs_of_ge (by decide), by decide, by decide⟩
  · exact ⟨_, exec_chslast_completes he ha, complete_of_length s (lastChs_length _) (by omega)⟩
  · exact ⟨_, exec_chslast_faults he ha, faultedWith_raise s .emptyDevice⟩

/-- Settles O28: SCNT has no fault to take; the corner cases are evaluated. -/
theorem scntWritesSectorCount : Obligations.ScntWritesSectorCount := by
  refine ⟨fun s he => ?_, rfl, sectorCount_zero, sectorCount_4294967294, sectorCount_of_ge (by decide),
    sectorCount_of_ge (by decide), sectorCount_of_ge (by decide), by decide⟩
  exact ⟨_, exec_scnt_completes he, complete_of_length s (sectorCount_length _) (by omega)⟩

/-! ### BUILD and AREA (R152, R153) -/

/-- A device of one block, whatever its size. -/
theorem maxLba_self {a : Word64} (ha : a ≠ 0) : maxLba a a = 1 := by
  have hpos : 0 < a.toNat := by bv_omega
  apply BitVec.eq_of_toNat_eq
  rw [maxLba_toNat, Nat.div_self hpos]
  rfl

/-- The record of one block (R152). -/
theorem record_self {a : Word64} (ha : a ≠ 0) : record a a =
    [0x00, 0x00, 0x01, 0x00, 0x0B, 0x00, 0x01, 0x00, 0x00, 0x00, 0x00, 0x00, 0x01, 0x00, 0x00, 0x00] := by
  rw [record, maxLba_self ha]
  decide

/-- An area fills `OUT`: no zeros follow the signature (R140). -/
theorem outOf_area_toList (total bs : Word64) :
    (outOf (area total bs)).toList = record total bs ++ [0x55, 0xAA] := by
  rw [outOf_toList _ (by rw [area_length]), area_length, Nat.sub_self, List.replicate_zero, List.append_nil, area]

/-- Settles O29: BUILD is its record behind the check. -/
theorem buildWritesRecord : Obligations.BuildWritesRecord := by
  refine ⟨fun s he hb hl hm => ?_, fun s he hb => ?_, fun s he hb hl => ?_, fun s he hb hl hm => ?_, rfl,
    fun _ => record_self, lastChs_16450558, lastChs_of_ge (by decide), sectorCount_4294967294, fun _ => sectorCount_of_ge,
    by decide, by decide, by decide, by decide⟩
  · exact ⟨_, exec_build_completes he hb hl hm, complete_of_length s (record_length _ _) (by omega)⟩
  · exact issue_checked_faults_of_bsZero _ he hb _
  · exact issue_checked_faults_of_emptyDevice _ he hb hl _
  · exact issue_checked_answers_nonmultiple _ he hb hl hm _

/-- Settles O30: AREA is its record and the signature behind the same check. -/
theorem areaWritesRecordAndSignature : Obligations.AreaWritesRecordAndSignature := by
  refine ⟨fun s he hb hl hm => ?_, fun s he hb => ?_, fun s he hb hl => ?_, fun s he hb hl hm => ?_, rfl, ?_⟩
  · obtain ⟨-, hlen, hvalid, hcompleted⟩ := complete_of_length s (area_length s.inA s.inB) (by omega)
    exact ⟨_, issue_checked_of_accepted he hb hl hm _, outOf_area_toList _ _, hlen, hvalid,
      by simp [area, record_length], by simp [area, record_length], hcompleted⟩
  · exact issue_checked_faults_of_bsZero _ he hb _
  · exact issue_checked_faults_of_emptyDevice _ he hb hl _
  · exact issue_checked_answers_nonmultiple _ he hb hl hm _
  · rw [area, record_self (by decide)]
    rfl

/-! ### What the commands have in common (R140, R154) -/

/-- What a command byte computes on the operands: its command's outcome, or ILLEGAL_CMD. -/
def byteResult (reject : Bool) (a b : Word64) (c : Byte) : Except FaultCode (List Byte) :=
  match decode c with
  | .ok i => resultOf reject a b i
  | .error _ => .error .illegalCmd

/-- Every command byte is the one operation `issue`, applied to what it computes from IN_A and IN_B. -/
theorem execute_eq_issue (c : Byte) (s : State) :
    execute c s = issue s (byteResult Config.rejectNonmultiple s.inA s.inB c) := by
  unfold execute byteResult
  cases decode c with
  | ok i => exact exec_eq_issue i s
  | error e => rfl

/-- Settles O40: both states conclude with one outcome, delivered or taken. -/
theorem resultDependsOnlyOnOperands : Obligations.ResultDependsOnlyOnOperands := by
  intro c s s' ha hb he
  rw [execute_eq_issue, execute_eq_issue, ← ha, ← hb]
  generalize byteResult Config.rejectNonmultiple s.inA s.inB c = r
  cases herr : s.err with
  | true => exact ⟨s, s', issue_faulted herr r, issue_faulted (he ▸ herr) r, fun _ => ⟨rfl, rfl⟩, nofun⟩
  | false =>
    refine ⟨s.conclude r, s'.conclude r, issue_unfaulted herr r, issue_unfaulted (he ▸ herr) r, nofun, fun _ => ?_⟩
    cases r with
    | ok b => simp [State.conclude, he, ← herr]
    | error f => simp [State.conclude]

/-- Settles O44: one check decides both, and its outcome is a fault or nothing. -/
theorem areaExtendsBuild : Obligations.AreaExtendsBuild := by
  intro s he
  rw [exec_build_eq_issue_checked, exec_area_eq_issue_checked, issue_unfaulted he, issue_unfaulted he]
  refine ⟨_, _, rfl, rfl, ?_⟩
  cases hcheck : buildCheck Config.rejectNonmultiple s.inA s.inB with
  | some c =>
    rw [checked_of_some hcheck, checked_of_some hcheck]
    simp [State.conclude]
  | none =>
    rw [checked_of_none hcheck, checked_of_none hcheck]
    have hbuild := outOf_take (r := record s.inA s.inB) (by rw [record_length]; omega) (record_length _ _).symm
    simp [State.conclude, record_length, area_length, hbuild, outOf_area_toList]

/-- Settles O45: BUILD's record has the two results as fields, and the block count is not 0. -/
theorem buildAgreesWithSubcommands : Obligations.BuildAgreesWithSubcommands := by
  intro s he hb hl hm
  rw [← maxLba_eq]
  have hn : maxLba s.inA s.inB ≠ 0 := by
    intro h0
    have hdiv := maxLba_toNat s.inA s.inB
    rw [h0] at hdiv
    exact absurd ((div_eq_zero_iff_lt hb).1 hdiv.symm) (by omega)
  have hchs := outOf_recordOf_lastChs (maxLba s.inA s.inB) (tail := []) (by simp)
  have hcount := outOf_recordOf_sectorCount (maxLba s.inA s.inB) (tail := []) (by simp)
  rw [List.append_nil] at hchs hcount
  refine ⟨_, _, _, exec_build_completes he hb hl (.inl hm),
    exec_chslast_completes ((s.setInA_err _).trans he) hn, exec_scnt_completes ((s.setInA_err _).trans he),
    State.complete_valid _ _, State.complete_valid _ _, ?_, ?_⟩
  · rw [State.complete_out, State.complete_out, State.setInA_inA, record, hchs,
      outOf_take (by rw [lastChs_length]; omega) (lastChs_length _).symm]
  · rw [State.complete_out, State.complete_out, State.setInA_inA, record, hcount,
      outOf_take (by rw [sectorCount_length]; omega) (sectorCount_length _).symm]

end Sys2Proof.Machine
end

section
/-! PROOFS of the faults (spec/60_exceptions.md): what taking a fault leaves (R172), which fault is taken (R170, R174, R175),
what a faulted block still does (R176), and the latch over every step (R171). -/

namespace Sys2Proof.Machine

/-! ### The fault latch (R171) -/

/-- All that a step can do to `ERR` and `CODE`: reset them, leave them, or take a fault on a write of `CMD`. -/
theorem step_latch_cases {s t : State} (h : step s = .next t) :
    (∃ rest, s.pending = .transaction .reset :: rest ∧ t = (s.setPending rest).hostReset) ∨
      (t.err = s.err ∧ t.code = s.code) ∨
      (s.err = false ∧ ∃ data rest c,
        s.pending = .transaction (.write 0x00 8 data) :: rest ∧ t = (s.setPending rest).raise c) := by
  obtain ⟨a, rest, hp, hperform⟩ := step_next h
  rcases perform_cases hperform with ⟨data, rfl, hx⟩ | ⟨data, -, rfl⟩ | ⟨data, -, rfl⟩ | ⟨offset, width, v, -, rfl⟩ |
    ⟨rfl, rfl⟩ | ⟨offset, b, -, rfl⟩
  · rcases execute_next hx with ⟨-, rfl⟩ | ⟨-, i, r, -, -, rfl⟩ | ⟨he, f, rfl⟩
    · exact .inr (.inl ⟨rfl, rfl⟩)
    · exact .inr (.inl ⟨by simp, by simp⟩)
    · exact .inr (.inr ⟨he, data, rest, f, hp, rfl⟩)
  · exact .inr (.inl ⟨rfl, rfl⟩)
  · exact .inr (.inl ⟨rfl, rfl⟩)
  · exact .inr (.inl ⟨rfl, rfl⟩)
  · exact .inl ⟨rest, hp, rfl⟩
  · exact .inr (.inl ⟨rfl, rfl⟩)

/-- Settles O37: only the reset clears `ERR`, and only the fault action on a write of `CMD` sets it. -/
theorem faultLatchHoldsUntilReset : Obligations.FaultLatchHoldsUntilReset := by
  intro s t hst
  rcases step_latch_cases hst with ⟨rest, hp, rfl⟩ | ⟨herr, hcode⟩ | ⟨he, data, rest, c, hp, rfl⟩
  · exact ⟨fun _ => .inl ⟨rest, hp, by simp, by simp⟩, fun _ ht => by simp at ht⟩
  · exact ⟨fun he => .inr ⟨herr.trans he, hcode⟩, fun he ht => by simp [herr, he] at ht⟩
  · exact ⟨fun herr => by simp [he] at herr, fun _ _ => ⟨data, rest, c, hp, rfl⟩⟩

/-! ### Which fault is reported (R174, R175) -/

/-- The bytes 4 and 5 issue a result behind the precondition check, the record or the area. -/
theorem execute_build_or_area {data : Word64} (hlo : 4 ≤ data.toNat % 256) (hhi : data.toNat % 256 ≤ 5) (s : State) :
    ∃ r, execute (data.extractLsb' 0 8) s = issue s (checked Config.rejectNonmultiple s.inA s.inB r) := by
  have hbyte : data.toNat % 256 = 4 ∨ data.toNat % 256 = 5 := by omega
  rcases hbyte with h | h
  · exact ⟨_, (execute_lowByte_of_encode (i := .build) h s).trans (exec_build_eq_issue_checked s)⟩
  · exact ⟨_, (execute_lowByte_of_encode (i := .area) h s).trans (exec_area_eq_issue_checked s)⟩

/-- A non-multiple faults or completes, as the open parameter says. -/
theorem issue_checked_nonmultiple_cases (reject : Bool) {s : State} (he : s.err = false) (hb : s.inB ≠ 0)
    (hl : s.inB.toNat ≤ s.inA.toNat) (hm : s.inA.toNat % s.inB.toNat ≠ 0) (r : List Byte) :
    ∃ t, issue s (checked reject s.inA s.inB r) = .next t ∧
      ((reject = true ∧ FaultedWith s t 4) ∨ (reject = false ∧ t.err = false ∧ t.valid = true)) := by
  cases reject with
  | true =>
    obtain ⟨t, ht, hfaulted⟩ := issue_checked_faults_of_nonmultiple he hb hl hm r
    exact ⟨t, ht, .inl ⟨rfl, hfaulted⟩⟩
  | false =>
    exact ⟨_, issue_checked_of_accepted he hb hl (.inr rfl) r, .inr ⟨rfl, (s.complete_err r).trans he, s.complete_valid r⟩⟩

/-- A command that is no BUILD or AREA, and no CHSLAST of a count of 0, delivers a result. -/
theorem execute_low_completes {data : Word64} {s : State} (he : s.err = false) (hlo : 1 ≤ data.toNat % 256)
    (hhi : data.toNat % 256 < 4) (ha : data.toNat % 256 = 2 → s.inA ≠ 0) :
    ∃ r, execute (data.extractLsb' 0 8) s = .next (s.complete r) := by
  have hbyte : data.toNat % 256 = 1 ∨ data.toNat % 256 = 2 ∨ data.toNat % 256 = 3 := by omega
  rcases hbyte with h | h | h
  · exact ⟨_, (execute_lowByte_of_encode (i := .chsenc) h s).trans (exec_chsenc_completes he)⟩
  · exact ⟨_, (execute_lowByte_of_encode (i := .chslast) h s).trans (exec_chslast_completes he (ha h))⟩
  · exact ⟨_, (execute_lowByte_of_encode (i := .scnt) h s).trans (exec_scnt_completes he)⟩

/-- Settles O33, along the chain: an illegal byte, then the check's order for BUILD and AREA, with CHSLAST's one fault beside
EMPTY_DEVICE. -/
theorem firstApplicableFaultIsReported : Obligations.FirstApplicableFaultIsReported := by
  intro s data rest hp
  rw [step_pending hp, perform_write_cmd, ← s.setPending_err rest, ← s.setPending_inA rest, ← s.setPending_inB rest]
  generalize s.setPending rest = u
  split_ifs with herr hillegal hzero hempty hnonmultiple
  · exact execute_faulted herr _
  all_goals have he : u.err = false := Bool.eq_false_iff.2 herr
  · exact execute_illegal he (by rwa [lowByte_toNat])
  · obtain ⟨hlo, hb⟩ := hzero
    obtain ⟨r, hr⟩ := execute_build_or_area hlo (by omega) u
    rw [hr]
    exact issue_checked_faults_of_bsZero _ he hb r
  · rcases hempty with ⟨hlo, hl⟩ | ⟨hbyte, ha⟩
    · obtain ⟨r, hr⟩ := execute_build_or_area hlo (by omega) u
      rw [hr]
      exact issue_checked_faults_of_emptyDevice _ he (fun hb => hzero ⟨hlo, hb⟩) hl r
    · rw [execute_lowByte_of_encode (i := .chslast) hbyte]
      exact ⟨_, exec_chslast_faults he ha, faultedWith_raise u .emptyDevice⟩
  · obtain ⟨hlo, hm⟩ := hnonmultiple
    obtain ⟨r, hr⟩ := execute_build_or_area hlo (by omega) u
    rw [hr]
    exact issue_checked_nonmultiple_cases _ he (fun hb => hzero ⟨hlo, hb⟩) (by omega) hm r
  · suffices hcompletes : ∃ r, execute (data.extractLsb' 0 8) u = .next (u.complete r) by
      obtain ⟨r, hr⟩ := hcompletes
      exact ⟨_, hr, (u.complete_err r).trans he, u.complete_valid r⟩
    by_cases hlo : 4 ≤ data.toNat % 256
    · obtain ⟨r, hr⟩ := execute_build_or_area hlo (by omega) u
      rw [hr]
      exact ⟨r, issue_checked_of_accepted he (fun hb => hzero ⟨hlo, hb⟩) (by omega) (.inl (by omega)) r⟩
    · exact execute_low_completes he (by omega) (by omega) fun hbyte ha => hempty (.inr ⟨hbyte, ha⟩)

/-- Settles O35: both commands complete, which leaves `ERR` and `CODE` alone. -/
theorem chsencAndScntNeverFault : Obligations.ChsencAndScntNeverFault :=
  ⟨decode_encode .chsenc, decode_encode .scnt, fun s he =>
    ⟨⟨_, exec_chsenc_completes he, (s.complete_err _).trans he, s.complete_code _⟩,
      ⟨_, exec_scnt_completes he, (s.complete_err _).trans he, s.complete_code _⟩⟩⟩

/-! ### The fault action and the faulted block (R172, R176) -/

/-- Settles O32: the fault action writes `STATUS` alone. -/
theorem faultActionWritesStatusOnly : Obligations.FaultActionWritesStatusOnly :=
  fun s c => ⟨faultedWith_raise s c, s.raise_device c⟩

/-- Settles O34: commands are ignored, and no other access looks at `ERR`. -/
theorem faultedBlockIgnoresCommands : Obligations.FaultedBlockIgnoresCommands := by
  refine fun s rest he => ⟨fun data hp => ?_, fun i => ?_, fun data hp => ?_, fun data hp => ?_,
    fun offset width hp hadmitted => ?_⟩
  · rw [step_pending hp, perform_write_cmd]
    exact execute_faulted ((s.setPending_err rest).trans he) _
  · rw [exec_eq_issue, issue_faulted he]
  · exact (step_pending hp).trans (perform_write_inA data _)
  · exact (step_pending hp).trans (perform_write_inB data _)
  · obtain ⟨r, hr⟩ := read_admitted hadmitted
    obtain ⟨v, hv, hread⟩ := perform_read hr (s.setPending rest)
    exact ⟨r, v, hr, (readRegister_setPending r s rest).symm.trans hv, (step_pending hp).trans hread⟩

/-! ### Saturation and the wrap complete (R170) -/

/-- The fields of a record whose last CHS is saturated, whatever follows the record in `OUT`. -/
theorem outOf_recordOf_saturated {n : Word64} (h : 16450559 ≤ n.toNat) {tail : List Byte} (htail : tail.length ≤ 2) :
    ((outOf (recordOf n ++ tail)).toList.drop 5).take 3 = chsSaturated ∧
      ((outOf (recordOf n ++ tail)).toList.drop 12).take 4 = sectorCount n ∧
      (4294967295 ≤ n.toNat → ((outOf (recordOf n ++ tail)).toList.drop 12).take 4 = cntSaturated) := by
  rw [outOf_recordOf_lastChs n htail, outOf_recordOf_sectorCount n htail]
  exact ⟨lastChs_of_ge h, rfl, sectorCount_of_ge⟩

/-- Settles O36: in each case the command completes, with the saturated or wrapped field where its result has it. -/
theorem saturationIsNoFault : Obligations.SaturationIsNoFault := by
  refine fun s he => ⟨fun ha => ?_, fun ha => ?_, fun _ => ?_, fun hb hn hm => ?_⟩
  · have hne : s.inA ≠ 0 := by bv_omega
    refine ⟨_, exec_chslast_completes he hne, (s.complete_err _).trans he, ?_⟩
    rw [State.complete_out, outOf_take (by rw [lastChs_length]; omega) (lastChs_length _).symm, lastChs_of_ge ha]
  · refine ⟨_, exec_scnt_completes he, (s.complete_err _).trans he, ?_⟩
    rw [State.complete_out, outOf_take (by rw [sectorCount_length]; omega) (sectorCount_length _).symm,
      sectorCount_of_ge ha]
  · refine ⟨_, exec_chsenc_completes he, (s.complete_err _).trans he, ?_⟩
    rw [State.complete_out, outOf_take (by rw [encodeChs_length]; omega) (encodeChs_length _).symm]
    exact encodeChs_mod_period s.inA
  · have hl : s.inB.toNat ≤ s.inA.toNat := Nat.not_lt.1 fun hlt => by
      rw [Nat.div_eq_of_lt hlt] at hn
      omega
    rw [← maxLba_eq, ← maxLba_toNat]
    rw [← maxLba_toNat] at hn
    have hbuild := outOf_recordOf_saturated hn (tail := []) (by simp)
    rw [List.append_nil] at hbuild
    exact ⟨⟨_, exec_build_completes he hb hl hm, (s.complete_err _).trans he, hbuild⟩,
      ⟨_, issue_checked_of_accepted he hb hl hm _, (s.complete_err _).trans he,
        outOf_recordOf_saturated hn (by simp)⟩⟩

end Sys2Proof.Machine
end

section
/-! PROOFS of the reset and of the hazards (spec/70_reset_and_hazards.md): the register values after reset (R200, R203),
results that are not live (R206), the whole-flow order (R204), and a run's observation (R210). -/

namespace Sys2Proof.Machine

/-! ### Reset (R200, R203) -/

/-- Settles O10: the step is HostReset, which touches the registers alone. -/
theorem hostResetClearsEveryRegister : Obligations.HostResetClearsEveryRegister :=
  fun s rest hp => ⟨(s.setPending rest).hostReset, (step_pending hp).trans (perform_reset _),
    registersReset_hostReset _, rfl, rfl, fun _ => rfl⟩

/-- Settles O58: the check finds the reset value 0 in IN_B before anything else. -/
theorem unwrittenOperandFaultsAfterReset : Obligations.UnwrittenOperandFaultsAfterReset := by
  have he : State.reset.err = false := State.hostReset_err State.reset
  rw [Obligations.UnwrittenOperandFaultsAfterReset, exec_build_eq_issue_checked, exec_area_eq_issue_checked]
  exact ⟨issue_checked_faults_of_bsZero _ he rfl _, issue_checked_faults_of_bsZero _ he rfl _⟩

/-! ### Results are not live (R206) -/

/-- Settles O42: of the six things an action can do, only executing a byte and the reset write OUT or STATUS. -/
theorem resultsAreNotLive : Obligations.ResultsAreNotLive := by
  refine ⟨fun s t hst hcmd hreset => ?_, fun s data rest hp => ?_⟩
  · obtain ⟨a, rest, hp, hperform⟩ := step_next hst
    rcases perform_cases hperform with ⟨data, rfl, -⟩ | ⟨data, -, rfl⟩ | ⟨data, -, rfl⟩ | ⟨offset, width, v, -, rfl⟩ |
      ⟨rfl, -⟩ | ⟨offset, b, -, rfl⟩
    · exact absurd hp (hcmd data rest)
    · exact ⟨rfl, rfl⟩
    · exact ⟨rfl, rfl⟩
    · exact ⟨rfl, rfl⟩
    · exact absurd hp (hreset rest)
    · exact ⟨rfl, rfl⟩
  · rcases hp with hp | hp
    · exact ⟨_, (step_pending hp).trans (perform_write_inA data _), rfl, rfl⟩
    · exact ⟨_, (step_pending hp).trans (perform_write_inB data _), rfl, rfl⟩

/-! ### A run's observation (R210) -/

/-- What every action of the host keeps, a run keeps. -/
theorem runActions_preserves {P : State → Prop} (hP : ∀ {a s t}, P s → perform a s = .next t → P t)
    {p : List HostAction} {s t : State} (hs : P s) (h : runActions p s = .next t) : P t := by
  induction p generalizing s with
  | nil => cases h; exact hs
  | cons a p ih =>
    rw [runActions] at h
    cases ha : perform a s with
    | next u => rw [ha] at h; exact ih (hP hs ha) h
    | fault f => simp [ha] at h
    | refused e => simp [ha] at h

theorem runActions_keeps_pending {p : List HostAction} {s t : State} (h : runActions p s = .next t) :
    t.pending = s.pending :=
  runActions_preserves (P := fun u => u.pending = s.pending) (fun hu hv => (perform_keeps_pending hv).trans hu) rfl h

/-- The host sees all of a `STATUS` whose reserved bits are 0 (R26). -/
theorem State.StatusInv.statusRead_eq_status {s : State} (h : s.StatusInv) : s.statusRead = s.status := by
  obtain ⟨hreserved, -⟩ := h
  calc s.status &&& statusFieldMask
    _ = s.status &&& statusFieldMask ||| s.status &&& ~~~statusFieldMask := by rw [hreserved]; exact BitVec.or_zero.symm
    _ = s.status := by rw [← BitVec.and_or_distrib_left, BitVec.or_not_self, BitVec.and_allOnes]

/-- A program has a run exactly if the register map admits all its actions, and the run is then that of its actions. -/
theorem runProgram_next_iff {p : List HostAction} {t : State} :
    runProgram p = .next t ↔ (∀ a ∈ p, a.admitted = true) ∧ runActions p State.reset = .next t := by
  constructor
  · intro h
    obtain ⟨hrefusal, hrun⟩ := runProgram_next h
    refine ⟨fun a ha => ?_, hrun⟩
    by_contra hf
    obtain ⟨e, he⟩ := programRefusal_of_not_admitted ha (Bool.eq_false_iff.2 hf)
    simp [he] at hrefusal
  · rintro ⟨hall, hrun⟩
    rw [runProgram, programRefusal_of_admitted hall, hrun]

/-- One more admitted action after a program that has a run. -/
theorem runProgram_concat {p : List HostAction} {a : HostAction} {t u : State} (h : runProgram p = .next t)
    (ha : a.admitted = true) (hu : perform a t = .next u) : runProgram (p ++ [a]) = .next u := by
  obtain ⟨hall, hrun⟩ := runProgram_next_iff.1 h
  refine runProgram_next_iff.2 ⟨fun b hb => ?_, (runActions_concat hrun a).trans hu⟩
  rcases List.mem_append.1 hb with hb | hb
  · exact hall b hb
  · exact List.mem_singleton.1 hb ▸ ha

/-- Executing a byte reads nothing for the host. -/
theorem execute_observed {c : Byte} {s t : State} (h : execute c s = .next t) : t.observed = s.observed := by
  rcases execute_next h with ⟨-, rfl⟩ | ⟨-, i, r, -, -, rfl⟩ | ⟨-, f, rfl⟩
  · rfl
  · exact s.complete_observed r
  · exact s.raise_observed f

/-- Only a read adds to what the host has read. -/
theorem perform_observed_of_not_read {a : HostAction} {s t : State} (h : perform a s = .next t)
    (hread : ∀ offset width, a ≠ .transaction (.read offset width)) : t.observed = s.observed := by
  rcases perform_cases h with ⟨data, -, hx⟩ | ⟨data, -, rfl⟩ | ⟨data, -, rfl⟩ | ⟨offset, width, v, rfl, -⟩ | ⟨-, rfl⟩ |
    ⟨offset, b, -, rfl⟩
  · exact execute_observed hx
  · rfl
  · rfl
  · exact absurd rfl (hread offset width)
  · rfl
  · rfl

/-- Without its device writes, and whatever the device holds, a run is the same but for the device. -/
theorem runActions_filter_setDevice {p : List HostAction} {s t : State} (h : runActions p s = .next t) (d : Memory) :
    runActions (p.filter HostAction.isTransaction) (s.setDevice d) = .next (t.setDevice d) := by
  induction p generalizing s with
  | nil => cases h; rfl
  | cons a p ih =>
    cases a with
    | devWrite offset b =>
      rw [List.filter_cons_of_neg (by simp [HostAction.isTransaction])]
      exact ih (s := s.devWrite offset b) h
    | transaction tr =>
      rw [List.filter_cons_of_pos rfl, runActions]
      rw [runActions] at h
      cases hperform : perform (.transaction tr) s with
      | next u =>
        rw [hperform] at h
        rw [perform_transaction_setDevice hperform d]
        exact ih h
      | fault f => simp [hperform] at h
      | refused e => simp [hperform] at h

/-- Settles O60: an action at a time for the reads, and by the run without the device for the device writes. -/
theorem runObservationIsFinalRegistersAndReads : Obligations.RunObservationIsFinalRegistersAndReads := by
  refine ⟨rfl, by decide, fun p t h => ?_, fun p a t h ha => ?_, fun p t h => ?_⟩
  · obtain ⟨-, hrun⟩ := runProgram_next_iff.1 h
    obtain ⟨hstatus, -⟩ := runActions_preserves State.Inv.perform invariantHoldsAtReset hrun
    exact ⟨runActions_keeps_pending hrun, by rw [State.observation, hstatus.statusRead_eq_status]⟩
  · obtain ⟨u, hu⟩ := perform_of_admitted ha t
    refine ⟨u, runProgram_concat h ha hu, hu, ?_, perform_observed_of_not_read hu⟩
    rintro offset width rfl
    obtain ⟨r, hr⟩ := read_admitted ha
    obtain ⟨v, hv, hread⟩ := perform_read hr t
    cases hu.symm.trans hread
    exact ⟨r, v, hr, hv, rfl⟩
  · obtain ⟨hall, hrun⟩ := runProgram_next_iff.1 h
    have hfilter := runActions_filter_setDevice hrun State.reset.device
    exact ⟨_, runProgram_next_iff.2 ⟨fun a ha => hall a (List.mem_of_mem_filter ha), hfilter⟩, rfl⟩

/-! ### The whole-flow order (R204) -/

/-- Where AREA ends with the block faulted: it was faulted before, or the check finds a fault of the sizes (R141). -/
def State.AreaFaults (s : State) : Prop :=
  s.err = true ∨ s.inB = 0 ∨ s.inA.toNat < s.inB.toNat ∨
    (s.inA.toNat % s.inB.toNat ≠ 0 ∧ Config.rejectNonmultiple = true)

/-- On an unfaulted block with sizes the check lets through, and only there, AREA does not fault. -/
theorem State.not_areaFaults_iff (s : State) :
    ¬ s.AreaFaults ↔ s.err = false ∧ s.inB ≠ 0 ∧ s.inB.toNat ≤ s.inA.toNat ∧
      (s.inA.toNat % s.inB.toNat = 0 ∨ Config.rejectNonmultiple = false) := by
  simp only [State.AreaFaults, not_or, not_and_or, not_not, not_lt, Bool.not_eq_true, ne_eq]

/-- The sizes the check refuses. -/
theorem buildCheck_refuses {reject : Bool} {a b : Word64}
    (h : b = 0 ∨ a.toNat < b.toNat ∨ (a.toNat % b.toNat ≠ 0 ∧ reject = true)) : ∃ c, buildCheck reject a b = some c := by
  by_cases hb : b = 0
  · exact ⟨_, buildCheck_bsZero reject hb⟩
  · by_cases hl : a.toNat < b.toNat
    · exact ⟨_, buildCheck_emptyDevice reject hb hl⟩
    · obtain ⟨hm, rfl⟩ := (h.resolve_left hb).resolve_left hl
      exact ⟨_, buildCheck_nonmultiple hb (not_lt.1 hl) hm⟩

/-- AREA leaves the block faulted wherever `AreaFaults` says so, within the frame of a command. -/
theorem exec_area_of_areaFaults {s : State} (h : s.AreaFaults) :
    ∃ u, exec .area s = .next u ∧ u.err = true ∧ CommandFrame s u := by
  obtain ⟨u, hu, hframe⟩ := exec_frame .area s
  refine ⟨u, hu, ?_, hframe⟩
  rcases exec_cases hu with ⟨he, rfl⟩ | ⟨he, r, hr, -⟩ | ⟨-, c, -, rfl⟩
  · exact he
  · obtain ⟨c, hc⟩ := buildCheck_refuses (h.resolve_left (by simp [he]))
    rw [resultOf, areaResult, checked_of_some hc] at hr
    cases hr
  · exact s.raise_err c

/-- AREA delivers its area everywhere else, within the same frame. -/
theorem exec_area_of_accepted {s : State} (h : ¬ s.AreaFaults) :
    ∃ u, exec .area s = .next u ∧ u.err = false ∧ u.valid = true ∧ u.out = outOf (area s.inA s.inB) ∧
      u.device = s.device ∧ CommandFrame s u := by
  obtain ⟨he, hb, hl, hm⟩ := s.not_areaFaults_iff.1 h
  exact ⟨_, issue_checked_of_accepted he hb hl hm _, (s.complete_err _).trans he, s.complete_valid _, s.complete_out _,
    s.complete_device _, commandFrame_complete s _⟩

/-- Where AREA completed, the host has read STATUS and all of OUT, and the device is the one step 5 leaves. -/
theorem hostFlow_reads_and_places {total bs : Word64} {s u : State}
    (h : exec .area ((s.setInA total).setInB bs) = .next u) (he : u.err = false) (hv : u.valid = true) :
    ∃ d, hostFlow total bs s = .next { u with
        observed := u.observed ++ [.status u.statusRead] ++ (List.finRange 18).map fun i => .byte u.out[i]
        device := d } ∧
      (Memory.firstBlockZero u.device → d = u.placeArea.device) ∧ (¬ Memory.firstBlockZero u.device → d = u.device) := by
  rw [hostFlow_completed h he hv]
  by_cases hzero : Memory.firstBlockZero u.device
  · exact ⟨_, placeOnZeroFilledBlock_of_zero hzero, fun _ => rfl, fun hnot => absurd hzero hnot⟩
  · exact ⟨_, placeOnZeroFilledBlock_of_not_zero hzero, fun hz => absurd hz hzero, fun _ => rfl⟩

/-- Every device byte after an area has been placed (R55). -/
theorem State.read_placeArea_of_area {s : State} {total bs : Word64} (h : s.out = outOf (area total bs)) (a : Nat) :
    Memory.read s.placeArea.device a =
      if 446 ≤ a ∧ a < 462 then (record total bs)[a - 446]?
      else if a = 510 then some 0x55 else if a = 511 then some 0xAA else Memory.read s.device a := by
  have hlen := record_length total bs
  have hout : ∀ k : Nat, s.out[k]? = (record total bs ++ [0x55, 0xAA])[k]? := fun k => by
    rw [← outOf_area_toList, ← h, Vector.getElem?_toList]
  rw [State.read_placeArea, hout, hout]
  by_cases hrecord : 446 ≤ a ∧ a < 462
  · rw [if_neg (by omega), if_pos (by omega), if_pos hrecord, List.getElem?_append_left (by omega)]
  · rw [if_neg hrecord]
    by_cases hsignature : a = 510 ∨ a = 511
    · rw [if_pos (by omega), List.getElem?_append_right (by omega), hlen]
      rcases hsignature with rfl | rfl <;> rfl
    · rw [if_neg (by omega), if_neg (by omega), if_neg (by omega), if_neg (by omega)]

/-- Settles O52: where AREA faults the flow ends at the check of step 3, and anywhere else at step 5. -/
theorem wholeFlowWritesDeviceOnlyAfterFaultFreeArea : Obligations.WholeFlowWritesDeviceOnlyAfterFaultFreeArea := by
  intro total bs s
  by_cases hfaults : ((s.setInA total).setInB bs).AreaFaults
  · obtain ⟨u, hu, he, hA, hB, hpending, hobserved, hdevice, -⟩ := exec_area_of_areaFaults hfaults
    refine ⟨_, hostFlow_faulted hu he, hA, hB, hpending, fun _ => ⟨he, ?_, hdevice⟩, fun he' hb hl hm => ?_⟩
    · exact congrArg (· ++ _) hobserved
    · exact absurd hfaults ((State.not_areaFaults_iff _).2 ⟨he', hb, hl, hm⟩)
  · obtain ⟨u, hu, he, hvalid, hout, hdevice, hA, hB, hpending, hobserved, -, -⟩ := exec_area_of_accepted hfaults
    obtain ⟨d, hflow, hzero, hnonzero⟩ := hostFlow_reads_and_places hu he hvalid
    have hdevice : u.device = s.device := hdevice
    have hout : u.out = outOf (area total bs) := hout
    rw [hdevice] at hzero hnonzero
    refine ⟨_, hflow, hA, hB, hpending, fun h => absurd h hfaults, fun _ _ _ _ =>
      ⟨he, hvalid, ?_, ?_, fun hz a => ?_, fun hz a => ?_⟩⟩
    · exact (congrArg Vector.toList hout).trans (outOf_area_toList total bs)
    · exact congrArg (· ++ _ ++ _) hobserved
    · rw [hzero hz, State.read_placeArea_of_area hout, hdevice]
    · rw [hnonzero hz]

end Sys2Proof.Machine
end
